-- ==== Sys2Proof/Word.lean ====
section
/-! DEFINITION. The word types of the block (00_scope.md R6, R8, R12). Every value is unsigned. -/

namespace Sys2Proof

/-- A value: "a 15-bit unsigned integer, the VM's sole scalar unit" (R12; WORD_BITS of R6). -/
abbrev Value := BitVec 15

/-- A code word: the 16-bit content of one memory cell (R12, D2). The pc (R18) and a stack entry (R22) have this width too. -/
abbrev CodeWord := BitVec 16

/-- A byte of the input and output streams (R102, R103). -/
abbrev Byte := BitVec 8

/-- A register number 0..7 (R14). -/
abbrev RegIdx := Fin 8

end Sys2Proof
end

