-- ==== Sys2Proof/Config.lean ====
section
/-! DEFINITION. The block's parameters (00_scope.md R6, R7) and the one value the spec leaves open. -/

namespace Sys2Proof.Config

/-- MODULUS (R6): arithmetic results are reduced by it (R73). -/
def modulus : Nat := 32768

/-- CODE_SIZE (R6): code addresses are 0..32767. -/
def codeSize : Nat := 32768

/-- NREGS (R6). -/
def nregs : Nat := 8

/-- REG_BASE (R6): the code word 32768 + i names register i (R14). -/
def regBase : Nat := 32768

/-- STACK_BASE (R6): the unified address of stack slot 0 (R25). -/
def stackBase : Nat := 32776

/-- The smallest MEM_SIZE the spec admits (R7). -/
def minMemSize : Nat := 32778

/-- The default MEM_SIZE (R6, D9). DESIGN CHOICE of the spec; log 3 (unsafe). -/
def defaultMemSize : Nat := 65536

/-- STACK_CAPACITY = MEM_SIZE - 32776 - 2, where the 2 is the trailer (R7). -/
def stackCapacity (memSize : Nat) : Nat := memSize - stackBase - 2

/-- SAVE_TRIGGER (R6): the input byte that causes a snapshot (R107). -/
def saveTrigger : Byte := 16

/-- The trailer's sp word for an sp that 16 bits cannot hold, which needs MEM_SIZE above 98313.
The spec gives the trailer word 16 bits (R120) and states no value there: a FREE VALUE.
DESIGN CHOICE, log 11 (safe). -/
opaque freeTrailerSp : Nat → CodeWord

end Sys2Proof.Config
end

