-- ==== Sys2Proof/Machine/Cause.lean ====
section
/-! DEFINITION. The fault causes of 60_exceptions.md R109 and their codes. -/

namespace Sys2Proof.Machine

/-- The twelve causes of R109, in the order of their codes. Each is fatal and terminal (R111). -/
inductive Cause where
  /-- POP, RET with sp = 0. -/
  | stackUnderflow
  /-- IN, when the host's read fails. -/
  | inputError
  /-- IN with byte 16, when the save fails. -/
  | snapshotError
  /-- IN, at end of input. -/
  | inputEnd
  /-- Decode, opcode word 22..65535. -/
  | illegalOpcode
  /-- Decode, value operand word 32776..65535. -/
  | invalidOperand
  /-- Decode, destination word not 32768..32775. -/
  | invalidDestination
  /-- Decode, pc or pc + n above 32767. -/
  | pcOutOfRange
  /-- MOD with b = 0. -/
  | divideByZero
  /-- PUSH, CALL with sp = STACK_CAPACITY. -/
  | stackOverflow
  /-- RMEM, POP writing a value above 32767. -/
  | valueOutOfRange
  /-- Reset with an invalid load record. -/
  | resetInvalid
  deriving DecidableEq, Repr

/-- The cause codes of R109. -/
def Cause.code : Cause → Nat
  | .stackUnderflow => 1
  | .inputError => 2
  | .snapshotError => 3
  | .inputEnd => 4
  | .illegalOpcode => 5
  | .invalidOperand => 6
  | .invalidDestination => 7
  | .pcOutOfRange => 8
  | .divideByZero => 9
  | .stackOverflow => 10
  | .valueOutOfRange => 11
  | .resetInvalid => 12

end Sys2Proof.Machine
end

