-- ==== Sys2Proof/Machine/Alu.lean ====
section
/-! DEFINITION. The ALU (40_operands_alu.md R73 to R79): exact unsigned results, then narrowed to 15 bits. It has no flags. -/

namespace Sys2Proof.Machine

/-- R74. -/
def add15 (a b : Value) : Value := BitVec.ofNat 15 ((a.toNat + b.toNat) % Config.modulus)

/-- R75. -/
def mul15 (a b : Value) : Value := BitVec.ofNat 15 ((a.toNat * b.toNat) % Config.modulus)

/-- R76: the unsigned remainder; b = 0 raises DivideByZero (D7). -/
def mod15 (a b : Value) : Except Cause Value :=
  if b = 0 then .error .divideByZero else .ok (BitVec.ofNat 15 (a.toNat % b.toNat))

/-- R77. -/
def and15 (a b : Value) : Value := a &&& b

/-- R78. -/
def or15 (a b : Value) : Value := a ||| b

/-- R79. -/
def not15 (a : Value) : Value := ~~~a

end Sys2Proof.Machine
end

