-- ==== Sys2Proof/Machine/State.lean ====
section
/-! DEFINITION. The state of 10_state.md R13, as plain data, with the host's side of the ports (46_system_io.md,
70_reset_and_hazards.md) beside it, because `step` has no other argument. -/

namespace Sys2Proof.Machine

/-- One 16-bit word at an address. The block has no bytes in memory (R37): DESIGN CHOICE, log 1 (safe). -/
abbrev Cell := Nat × CodeWord

/-- A word-addressed store in canonical form: addresses strictly rising, no listed word equal to what an unlisted address
reads as (`Memory.wf` in Ops.lean). -/
abbrev Memory := List Cell

/-- The run state (R26). Only Running has steps. -/
inductive RunState where
  | running
  | halted
  | faulted (c : Cause)
  deriving DecidableEq, Repr

/-- The host's answer to an input request (R103). -/
inductive InputAnswer where
  | byte (b : Byte)
  | endOfInput
  | error
  deriving DecidableEq, Repr

/-- The host's answer to a snapshot request (R104). -/
inductive SnapshotAnswer where
  | ok
  | error
  deriving DecidableEq, Repr

/-- What passes through the host ports: a byte emitted (R102), an input answer consumed (R103), a snapshot record handed
over and answered (R104). -/
inductive Event where
  | emit (b : Byte)
  | input (a : InputAnswer)
  | snapshot (record : Memory) (a : SnapshotAnswer)
  deriving DecidableEq, Repr

/-- The host's side of the ports. None of it is state of the block (R13); DESIGN CHOICE, log 5, log 6, log 7. -/
structure Env where
  /-- The answers the host has ready for input requests, next first (R103). Empty: the host has not answered. -/
  input : List InputAnswer
  /-- The answers the host has ready for snapshot requests, next first (R104). Empty: the host has not answered. -/
  snapshotAnswers : List SnapshotAnswer
  /-- The load record of a reset the host asks for (R120), over the unified addresses of R25. -/
  resetRequest : Option Memory
  /-- What has passed through the ports, oldest first. -/
  events : List Event
  deriving DecidableEq, Repr

/-- The state tuple of R13, the parameter MEM_SIZE of R7 (log 3), and the host's side of the ports. -/
structure State where
  /-- MEM_SIZE (R7). No step changes it. -/
  memSize : Nat
  /-- x[0..7] (R14). -/
  regs : Vector Value 8
  /-- The program counter, 16 bits (R18). -/
  pc : CodeWord
  /-- The stack pointer: the number of pushed entries, and the next free slot (R21). -/
  sp : Nat
  /-- STK, by slot number (R22). -/
  stk : Memory
  /-- CODE, by code address (R24). -/
  code : Memory
  /-- The run state (R26). -/
  run : RunState
  /-- The host's side of the ports. -/
  env : Env
  deriving DecidableEq, Repr

/-- Why a step does not happen. The block's own faults (R109) are not among these: taking one is a next state
(`State.takeFault`). -/
inductive Fault where
  /-- Raised by `step` in Halted: "A Halted state also has no step" (R111). Safe, log 8. -/
  | halted
  /-- Raised by `step` in Faulted(c): "A Faulted state has no step" (R111). Safe, log 8. -/
  | faulted (c : Cause)
  /-- Raised by IN while the host has not answered its input request: "Until the host answers, the block has no step" (R103). Safe, log 5. -/
  | awaitingInput
  /-- Raised by IN with byte 16 while the host has not answered its snapshot request (R104). Safe, log 5, log 13. -/
  | awaitingSnapshot
  deriving DecidableEq, Repr

/-- Why the model gives no meaning. -/
inductive Refusal where
  /-- Raised by an arm of `exec` whose instruction has no meaning yet; no arm is left so. Safe. -/
  | notModelled (mnemonic : String)
  deriving DecidableEq, Repr

/-- The outcome of a meaning or of a step. -/
abbrev Result := Host.Outcome State Fault Refusal

/-- The host's side at State.reset: no answer ready, no reset asked for, nothing passed yet. DESIGN CHOICE, log 5, log 6, log 7 (safe). -/
def Env.initial : Env := { input := [], snapshotAnswers := [], resetRequest := none, events := [] }

/-- The block right after reset from a fresh image (R122) that holds no words: every register, sp, pc, code word and stack
slot 0, Running. MEM_SIZE is the spec's default (D9, log 3); the choice of the load record is log 4. -/
def State.reset : State :=
  { memSize := Config.defaultMemSize
    regs := #v[0, 0, 0, 0, 0, 0, 0, 0]
    pc := 0
    sp := 0
    stk := []
    code := []
    run := .running
    env := Env.initial }

end Sys2Proof.Machine
end

