-- ==== Sys2Proof/Machine/Ops.lean ====
section
/-! DEFINITION. The shared operations: word stores, registers, pc, stack, code memory, host ports, the commit of an
instruction (R10) and fault entry (R114). There is no return from a fault (R115), so no such operation stands here. -/

namespace Sys2Proof.Machine

/-- What an unlisted address reads as: the 0 of a fresh image (R122), log 4. -/
def Memory.unlisted : CodeWord := 0

/-- The canonical form of a store with addresses below `size`. -/
abbrev Memory.wf (size : Nat) (m : Memory) : Prop :=
  m.Pairwise (fun c d => c.1 < d.1) ∧ ∀ c ∈ m, c.1 < size ∧ c.2 ≠ Memory.unlisted

/-- The word at an address. -/
def Memory.read : Memory → Nat → CodeWord
  | [], _ => Memory.unlisted
  | (b, u) :: rest, a => if b = a then u else Memory.read rest a

/-- A cell, or nothing where the word is what an unlisted address reads as. -/
def Memory.cell (a : Nat) (v : CodeWord) : Memory := if v = Memory.unlisted then [] else [(a, v)]

/-- Store a word, keeping the canonical form. -/
def Memory.write : Memory → Nat → CodeWord → Memory
  | [], a, v => Memory.cell a v
  | (b, u) :: rest, a, v =>
    if b < a then (b, u) :: Memory.write rest a v
    else if b = a then Memory.cell a v ++ rest
    else Memory.cell a v ++ (b, u) :: rest

namespace State

/-- STACK_CAPACITY of this block (R7). -/
def cap (s : State) : Nat := Config.stackCapacity s.memSize

/-- x[r] (R9, R14). -/
def reg (s : State) (r : RegIdx) : Value := s.regs[r]

/-- x[r] <- v, for a value that fits (R9). -/
def setReg (s : State) (r : RegIdx) (v : Value) : State := { s with regs := s.regs.set r v }

/-- WriteReg(r, w): a word above 32767 faults, and any other is stored (R69). -/
def writeReg (s : State) (r : RegIdx) (w : CodeWord) : Except Cause State :=
  if 32767 < w.toNat then .error .valueOutOfRange else .ok (s.setReg r (w.setWidth 15))

/-- pc <- target (R9). -/
def setPc (s : State) (t : CodeWord) : State := { s with pc := t }

/-- The linear advance by the instruction's length (R19). The sum is exact: Decode has faulted a pc above 32767 (log 10). -/
def advance (s : State) (len : Nat) : State := s.setPc (s.pc + BitVec.ofNat 16 len)

/-- The word in stack slot i (R22). -/
def stackRead (s : State) (i : Nat) : CodeWord := s.stk.read i

/-- StackWrite(i, v) (R9). -/
def stackWrite (s : State) (i : Nat) (v : CodeWord) : State := { s with stk := s.stk.write i v }

/-- sp <- n (R9). -/
def setSp (s : State) (n : Nat) : State := { s with sp := n }

/-- Push(v) (R71). -/
def push (s : State) (v : CodeWord) : Except Cause State :=
  if s.sp = s.cap then .error .stackOverflow else .ok ((s.stackWrite s.sp v).setSp (s.sp + 1))

/-- Pop() (R72): the popped word and the state with sp lowered. The slot keeps its word (R22). -/
def pop (s : State) : Except Cause (CodeWord × State) :=
  if s.sp = 0 then .error .stackUnderflow else .ok (s.stackRead (s.sp - 1), s.setSp (s.sp - 1))

/-- MemRead(a, 1) (R31). The address is a resolved value, so it is a code address (R34). -/
def memRead (s : State) (a : Value) : CodeWord := s.code.read a.toNat

/-- MemWrite(a, 1, v) (R31): a value in a 16-bit cell, bit 15 zero (R39). -/
def memWrite (s : State) (a v : Value) : State := { s with code := s.code.write a.toNat (v.setWidth 16) }

/-- run <- r. -/
def setRun (s : State) (r : RunState) : State := { s with run := r }

/-- The host's side of the ports changes. -/
def setEnv (s : State) (e : Env) : State := { s with env := e }

/-- The host's side after one more port event. -/
def record (s : State) (e : Event) : State := s.setEnv { s.env with events := s.env.events ++ [e] }

/-- Emit(b): the host always accepts (R102, D20); log 15 (unsafe). -/
def emit (s : State) (b : Byte) : State := s.record (.emit b)

/-- InputByte() (R103): the host's next answer and the state with it consumed; none while the host has not answered. -/
def inputByte (s : State) : Option (InputAnswer × State) :=
  match s.env.input with
  | [] => none
  | a :: rest => some (a, (s.setEnv { s.env with input := rest }).record (.input a))

/-- Fault entry (R114): nothing is saved, every register, pc, sp, slot and code word stays, and run becomes Faulted(c). -/
def takeFault (s : State) (c : Cause) : State := s.setRun (.faulted c)

/-- The commit (R10): a body that ends normally gives the next state, a raise discards the working copy and enters the
fault on the state before the instruction (R114). -/
def commit (s : State) : Except Cause State → Result
  | .ok t => .next t
  | .error c => .next (s.takeFault c)

/-- The host-visible status: the pair (state code, cause code) of R109. -/
def status (s : State) : Nat × Nat :=
  match s.run with
  | .running => (0, 0)
  | .halted => (1, 0)
  | .faulted c => (2, c.code)

end State

/-- The bytes emitted so far, oldest first: the output stream of R102. -/
def Env.output (e : Env) : List Byte :=
  e.events.filterMap fun ev =>
    match ev with
    | .emit b => some b
    | .input _ => none
    | .snapshot _ _ => none

end Sys2Proof.Machine
end

