-- ==== Sys2Proof/Syntax.lean ====
section
/-! DEFINITION. The 22 instructions of 30_encoding.md R47 (spec/opcode_table.json) as syntax. -/

namespace Sys2Proof

/-- The three classes of operand word (R48). `invalid w` stands for a word of 32776..65535, which "denotes nothing". -/
inductive Operand where
  | lit (v : Value)
  | reg (r : RegIdx)
  | invalid (w : CodeWord)
  deriving DecidableEq, Repr

/-- The kinds of operand position (R47): `dst` is D (R50), `val` is V (R49). -/
inductive Kind where
  | dst
  | val
  deriving DecidableEq, Repr

/-- The mnemonics of the opcode map, in its row order (R47). -/
inductive Mnemonic where
  | halt | set | push | pop | eq | gt | jmp | jt | jf | add | mult | mod | and | or | not
  | rmem | wmem | call | ret | out | inp | noop
  deriving DecidableEq, Repr

/-- An instruction with its operands in the order of R47. A destination position holds any `Operand` too, because
a word that is no register reference can stand there in memory; `Instr.wellFormed` refuses it. -/
inductive Instr where
  | halt
  | set (dst val : Operand)
  | push (val : Operand)
  | pop (dst : Operand)
  | eq (dst a b : Operand)
  | gt (dst a b : Operand)
  | jmp (addr : Operand)
  | jt (cond addr : Operand)
  | jf (cond addr : Operand)
  | add (dst a b : Operand)
  | mult (dst a b : Operand)
  | mod (dst a b : Operand)
  | and (dst a b : Operand)
  | or (dst a b : Operand)
  | not (dst a : Operand)
  | rmem (dst addr : Operand)
  | wmem (addr val : Operand)
  | call (addr : Operand)
  | ret
  | out (val : Operand)
  | inp (dst : Operand)
  | noop
  deriving DecidableEq, Repr

end Sys2Proof
end

