-- ==== Sys2Proof/Machine/Operands.lean ====
section
/-! DEFINITION. The operand resolver and the destination decoder (40_operands_alu.md R63 to R68). -/

namespace Sys2Proof.Machine

/-- The resolver val(w) (R65), one level deep (R67). Its last arm is unreachable after Decode (log 12). -/
def val (s : State) : Operand → Except Cause Value
  | .lit v => .ok v
  | .reg r => .ok (s.reg r)
  | .invalid _ => .error .invalidOperand

/-- The destination decoder dst(w) (R66): never resolved (R64). Its fault arms are unreachable after Decode (log 12). -/
def dst : Operand → Except Cause RegIdx
  | .lit _ => .error .invalidDestination
  | .reg r => .ok r
  | .invalid _ => .error .invalidDestination

end Sys2Proof.Machine
end

