-- ==== Sys2Proof/Machine/Compute.lean ====
section
/-! DEFINITION. The shared shape of the instructions that compute a value into a destination register
(42_compare.md, 44_arith_logic.md): resolve the operands left to right, compute, WriteReg, advance. -/

namespace Sys2Proof.Machine

/-- Two value operands, four words. -/
def compute2 (f : Value → Value → Except Cause Value) (d a b : Operand) (s : State) : Result :=
  s.commit do
    let r ← dst d
    let x ← val s a
    let y ← val s b
    let z ← f x y
    let t ← s.writeReg r (z.setWidth 16)
    return t.advance 4

/-- One value operand, three words. -/
def compute1 (f : Value → Value) (d a : Operand) (s : State) : Result :=
  s.commit do
    let r ← dst d
    let x ← val s a
    let t ← s.writeReg r ((f x).setWidth 16)
    return t.advance 3

end Sys2Proof.Machine
end

