-- ==== Sys2Proof/Machine/Arith.lean ====
section
/-! DEFINITION. ADD, MULT, MOD, AND, OR, NOT (44_arith_logic.md). -/

namespace Sys2Proof.Machine

/-- ADD (R93). -/
def execAdd (d a b : Operand) (s : State) : Result := compute2 (fun x y => .ok (add15 x y)) d a b s

/-- MULT (R94). -/
def execMult (d a b : Operand) (s : State) : Result := compute2 (fun x y => .ok (mul15 x y)) d a b s

/-- MOD (R95): DivideByZero when b is 0. -/
def execMod (d a b : Operand) (s : State) : Result := compute2 mod15 d a b s

/-- AND (R96). -/
def execAnd (d a b : Operand) (s : State) : Result := compute2 (fun x y => .ok (and15 x y)) d a b s

/-- OR (R97). -/
def execOr (d a b : Operand) (s : State) : Result := compute2 (fun x y => .ok (or15 x y)) d a b s

/-- NOT (R98). -/
def execNot (d a : Operand) (s : State) : Result := compute1 not15 d a s

end Sys2Proof.Machine
end

