-- ==== Sys2Proof/Machine/Flags.lean ====
section
/-! DEFINITION. The block has no flags (10_state.md R27): no instruction writes a status as a side effect. What stands in
their place is here: the comparisons, whose 0 or 1 is a value for a register (R80, R81), and the test of a condition
operand (R89, R90). -/

namespace Sys2Proof.Machine

/-- R80. -/
def eq15 (a b : Value) : Value := if a = b then 1 else 0

/-- R81: an unsigned comparison. -/
def gt15 (a b : Value) : Value := if b.toNat < a.toNat then 1 else 0

/-- The condition of JT: any value but 0 (R89). JF takes its opposite (R90). -/
def isTrue (c : Value) : Bool := c != 0

end Sys2Proof.Machine
end

