-- ==== Sys2Proof/Machine/Compare.lean ====
section
/-! DEFINITION. EQ, GT (42_compare.md). -/

namespace Sys2Proof.Machine

/-- EQ (R85). -/
def execEq (d a b : Operand) (s : State) : Result := compute2 (fun x y => .ok (eq15 x y)) d a b s

/-- GT (R86). -/
def execGt (d a b : Operand) (s : State) : Result := compute2 (fun x y => .ok (gt15 x y)) d a b s

end Sys2Proof.Machine
end

