-- ==== Sys2Proof/Machine/Control.lean ====
section
/-! DEFINITION. JMP, JT, JF, CALL, RET (43_control.md). -/

namespace Sys2Proof.Machine

/-- pc <- t for a resolved target (R87). -/
def State.jump (s : State) (t : Value) : State := s.setPc (t.setWidth 16)

/-- JMP (R88). -/
def execJmp (a : Operand) (s : State) : Result :=
  s.commit do
    let t ← val s a
    return s.jump t

/-- JT (R89). -/
def execJt (c a : Operand) (s : State) : Result :=
  s.commit do
    let x ← val s c
    let t ← val s a
    return if isTrue x then s.jump t else s.advance 3

/-- JF (R90). -/
def execJf (c a : Operand) (s : State) : Result :=
  s.commit do
    let x ← val s c
    let t ← val s a
    return if isTrue x then s.advance 3 else s.jump t

/-- CALL (R91): the return address is pc + 2. -/
def execCall (a : Operand) (s : State) : Result :=
  s.commit do
    let t ← val s a
    let u ← s.push (s.pc + 2)
    return u.jump t

/-- RET (R92): the popped word goes into pc unchecked. -/
def execRet (s : State) : Result :=
  s.commit do
    let (w, t) ← s.pop
    return t.setPc w

end Sys2Proof.Machine
end

