-- ==== Sys2Proof/Machine/MemAccess.lean ====
section
/-! DEFINITION. RMEM, WMEM (45_memory_access.md). -/

namespace Sys2Proof.Machine

/-- RMEM (R100): the word is copied as it is; a word above 32767 faults ValueOutOfRange. -/
def execRmem (d a : Operand) (s : State) : Result :=
  s.commit do
    let r ← dst d
    let x ← val s a
    let t ← s.writeReg r (s.memRead x)
    return t.advance 3

/-- WMEM (R101): both operands are values. -/
def execWmem (a v : Operand) (s : State) : Result :=
  s.commit do
    let x ← val s a
    let y ← val s v
    return (s.memWrite x y).advance 3

end Sys2Proof.Machine
end

