-- ==== Sys2Proof/Machine/Move.lean ====
section
/-! DEFINITION. SET, PUSH, POP (41_move_stack.md). -/

namespace Sys2Proof.Machine

/-- SET (R82). -/
def execSet (d v : Operand) (s : State) : Result :=
  s.commit do
    let r ← dst d
    let x ← val s v
    let t ← s.writeReg r (x.setWidth 16)
    return t.advance 3

/-- PUSH (R83). -/
def execPush (v : Operand) (s : State) : Result :=
  s.commit do
    let x ← val s v
    let t ← s.push (x.setWidth 16)
    return t.advance 2

/-- POP (R84): StackUnderflow before ValueOutOfRange. -/
def execPop (d : Operand) (s : State) : Result :=
  s.commit do
    let r ← dst d
    let (w, t) ← s.pop
    let u ← t.writeReg r w
    return u.advance 2

end Sys2Proof.Machine
end

