-- ==== Sys2Proof/Machine/Snapshot.lean ====
section
/-! DEFINITION. The snapshot record in the unified layout of 10_state.md R25, and the snapshot request (46_system_io.md R104). -/

namespace Sys2Proof.Machine

/-- The register words of the unified layout from register i on: 32768 + i holds x[i] (R25). -/
def regCells : Nat → List Value → Memory
  | _, [] => []
  | i, v :: vs => Memory.cell (Config.regBase + i) (v.setWidth 16) ++ regCells (i + 1) vs

/-- The trailer's sp word (R25, R120): sp as a 16-bit word; for an sp that 16 bits cannot hold, a free value (log 11). -/
def trailerSp (sp : Nat) : CodeWord :=
  if sp < 65536 then BitVec.ofNat 16 sp else Config.freeTrailerSp sp

/-- The complete machine state in the unified layout (R25): CODE, x, STK, then sp at MEM_SIZE - 2 and pc at MEM_SIZE - 1 (C5). -/
def State.unified (s : State) : Memory :=
  s.code ++ regCells 0 s.regs.toList ++ s.stk.map (fun c => (Config.stackBase + c.1, c.2)) ++
    Memory.cell (s.memSize - 2) (trailerSp s.sp) ++ Memory.cell (s.memSize - 1) s.pc

/-- Snapshot(t) requested by an instruction that started in s (its external effects so far done) and is about to commit t
(R104, R107): no answer, no step; Ok commits t; Error raises SnapshotError, and the record stays handed over (R114). -/
def State.snapshot (s t : State) : Result :=
  match s.env.snapshotAnswers with
  | [] => .fault .awaitingSnapshot
  | a :: rest =>
    let e : Env := { s.env with snapshotAnswers := rest, events := s.env.events ++ [.snapshot t.unified a] }
    match a with
    | .ok => .next (t.setEnv e)
    | .error => .next ((s.setEnv e).takeFault .snapshotError)

end Sys2Proof.Machine
end

