-- ==== Sys2Proof/Machine/System.lean ====
section
/-! DEFINITION. HALT, OUT, IN, NOOP (46_system_io.md). -/

namespace Sys2Proof.Machine

/-- HALT (R105): pc stays. -/
def execHalt (s : State) : Result := .next (s.setRun .halted)

/-- OUT (R106): the low 8 bits of the value. -/
def execOut (v : Operand) (s : State) : Result :=
  s.commit do
    let x ← val s v
    return (s.emit (x.setWidth 8)).advance 2

/-- The end of IN once byte b has been consumed in state s: write it, advance, and for the save trigger ask for the
snapshot of the state about to be committed (R107, D12). -/
def deliverByte (r : RegIdx) (b : Byte) (s : State) : Result :=
  match s.writeReg r (b.setWidth 16) with
  | .error c => .next (s.takeFault c)
  | .ok t => if b = Config.saveTrigger then s.snapshot (t.advance 2) else .next (t.advance 2)

/-- IN (R107): the destination is checked before any input is requested; a consumed answer stays consumed when the
instruction faults (R114). -/
def execInp (d : Operand) (s : State) : Result :=
  match dst d with
  | .error c => .next (s.takeFault c)
  | .ok r =>
    match s.inputByte with
    | none => .fault .awaitingInput
    | some (.error, t) => .next (t.takeFault .inputError)
    | some (.endOfInput, t) => .next (t.takeFault .inputEnd)
    | some (.byte b, t) => deliverByte r b t

/-- NOOP (R108). -/
def execNoop (s : State) : Result := .next (s.advance 1)

end Sys2Proof.Machine
end

