-- ==== Sys2Proof/Machine/Dispatch.lean ====
section
/-! DEFINITION. One arm per instruction of 30_encoding.md R47. -/

namespace Sys2Proof.Machine

def exec (i : Instr) (s : State) : Host.Outcome State Fault Refusal :=
  match i with
  | .halt => Sys2Proof.Machine.execHalt s
  | .set d v => Sys2Proof.Machine.execSet d v s
  | .push v => Sys2Proof.Machine.execPush v s
  | .pop d => Sys2Proof.Machine.execPop d s
  | .eq d a b => Sys2Proof.Machine.execEq d a b s
  | .gt d a b => Sys2Proof.Machine.execGt d a b s
  | .jmp a => Sys2Proof.Machine.execJmp a s
  | .jt c a => Sys2Proof.Machine.execJt c a s
  | .jf c a => Sys2Proof.Machine.execJf c a s
  | .add d a b => Sys2Proof.Machine.execAdd d a b s
  | .mult d a b => Sys2Proof.Machine.execMult d a b s
  | .mod d a b => Sys2Proof.Machine.execMod d a b s
  | .and d a b => Sys2Proof.Machine.execAnd d a b s
  | .or d a b => Sys2Proof.Machine.execOr d a b s
  | .not d a => Sys2Proof.Machine.execNot d a s
  | .rmem d a => Sys2Proof.Machine.execRmem d a s
  | .wmem a v => Sys2Proof.Machine.execWmem a v s
  | .call a => Sys2Proof.Machine.execCall a s
  | .ret => Sys2Proof.Machine.execRet s
  | .out v => Sys2Proof.Machine.execOut v s
  | .inp d => Sys2Proof.Machine.execInp d s
  | .noop => Sys2Proof.Machine.execNoop s

end Sys2Proof.Machine
end

