-- ==== Sys2Proof/WellFormed.lean ====
section
/-! DEFINITION. When an instruction's operands fit the kinds of R47: a destination is a register reference (R50),
a value operand is a literal or a register reference (R49). Written per instruction, beside and not from the kind
table that the decoder uses; `Laws/Decode.lean` proves the two agree. -/

namespace Sys2Proof

/-- A destination operand must be a register reference (R50). -/
def Operand.isDestination : Operand → Bool
  | .lit _ => false
  | .reg _ => true
  | .invalid _ => false

/-- A value operand must not be an invalid word (R49). -/
def Operand.isValue : Operand → Bool
  | .lit _ => true
  | .reg _ => true
  | .invalid _ => false

/-- The operand kinds of R47, instruction by instruction. -/
def Instr.wellFormed : Instr → Bool
  | .halt => true
  | .set d v => d.isDestination && v.isValue
  | .push v => v.isValue
  | .pop d => d.isDestination
  | .eq d a b => d.isDestination && a.isValue && b.isValue
  | .gt d a b => d.isDestination && a.isValue && b.isValue
  | .jmp t => t.isValue
  | .jt c t => c.isValue && t.isValue
  | .jf c t => c.isValue && t.isValue
  | .add d a b => d.isDestination && a.isValue && b.isValue
  | .mult d a b => d.isDestination && a.isValue && b.isValue
  | .mod d a b => d.isDestination && a.isValue && b.isValue
  | .and d a b => d.isDestination && a.isValue && b.isValue
  | .or d a b => d.isDestination && a.isValue && b.isValue
  | .not d a => d.isDestination && a.isValue
  | .rmem d a => d.isDestination && a.isValue
  | .wmem a v => a.isValue && v.isValue
  | .call t => t.isValue
  | .ret => true
  | .out v => v.isValue
  | .inp d => d.isDestination
  | .noop => true

end Sys2Proof
end

