-- ==== Sys2Proof/Decode.lean ====
section
/-! DEFINITION. The decoder of 30_encoding.md R45 to R59, total on any list of code words and rejecting by the fault
causes of R53, and the encoder written from the same opcode map (R47, R60). -/

namespace Sys2Proof

open Sys2Proof.Machine (Cause)

/-- The opcode values of R47. UNVERIFIED: the spec takes the numbers from general knowledge (D1, G1); log 2 (unsafe).
This is the only place the numbering stands. -/
def Mnemonic.opcode : Mnemonic → CodeWord
  | .halt => 0
  | .set => 1
  | .push => 2
  | .pop => 3
  | .eq => 4
  | .gt => 5
  | .jmp => 6
  | .jt => 7
  | .jf => 8
  | .add => 9
  | .mult => 10
  | .mod => 11
  | .and => 12
  | .or => 13
  | .not => 14
  | .rmem => 15
  | .wmem => 16
  | .call => 17
  | .ret => 18
  | .out => 19
  | .inp => 20
  | .noop => 21

/-- The operand kinds of R47; the length of an instruction is one word more than their number (R45). -/
def Mnemonic.kinds : Mnemonic → List Kind
  | .halt => []
  | .set => [.dst, .val]
  | .push => [.val]
  | .pop => [.dst]
  | .eq => [.dst, .val, .val]
  | .gt => [.dst, .val, .val]
  | .jmp => [.val]
  | .jt => [.val, .val]
  | .jf => [.val, .val]
  | .add => [.dst, .val, .val]
  | .mult => [.dst, .val, .val]
  | .mod => [.dst, .val, .val]
  | .and => [.dst, .val, .val]
  | .or => [.dst, .val, .val]
  | .not => [.dst, .val]
  | .rmem => [.dst, .val]
  | .wmem => [.val, .val]
  | .call => [.val]
  | .ret => []
  | .out => [.val]
  | .inp => [.dst]
  | .noop => []

/-- Every row of R47. -/
def Mnemonic.all : List Mnemonic :=
  [.halt, .set, .push, .pop, .eq, .gt, .jmp, .jt, .jf, .add, .mult] ++
  [.mod, .and, .or, .not, .rmem, .wmem, .call, .ret, .out, .inp, .noop]

/-- The row an opcode word selects; none for a word of 22..65535 (R46, R55). -/
def Mnemonic.ofOpcode (w : CodeWord) : Option Mnemonic :=
  Mnemonic.all.find? fun m => m.opcode == w

/-- The instruction of a row with the given operands; none where their number is not the row's. -/
def Instr.build : Mnemonic → List Operand → Option Instr
  | .halt, [] => some .halt
  | .set, [d, v] => some (.set d v)
  | .push, [v] => some (.push v)
  | .pop, [d] => some (.pop d)
  | .eq, [d, a, b] => some (.eq d a b)
  | .gt, [d, a, b] => some (.gt d a b)
  | .jmp, [t] => some (.jmp t)
  | .jt, [c, t] => some (.jt c t)
  | .jf, [c, t] => some (.jf c t)
  | .add, [d, a, b] => some (.add d a b)
  | .mult, [d, a, b] => some (.mult d a b)
  | .mod, [d, a, b] => some (.mod d a b)
  | .and, [d, a, b] => some (.and d a b)
  | .or, [d, a, b] => some (.or d a b)
  | .not, [d, a] => some (.not d a)
  | .rmem, [d, a] => some (.rmem d a)
  | .wmem, [a, v] => some (.wmem a v)
  | .call, [t] => some (.call t)
  | .ret, [] => some .ret
  | .out, [v] => some (.out v)
  | .inp, [d] => some (.inp d)
  | .noop, [] => some .noop
  | _, _ => none

/-- The row of an instruction. -/
def Instr.mnemonic : Instr → Mnemonic
  | .halt => .halt
  | .set _ _ => .set
  | .push _ => .push
  | .pop _ => .pop
  | .eq _ _ _ => .eq
  | .gt _ _ _ => .gt
  | .jmp _ => .jmp
  | .jt _ _ => .jt
  | .jf _ _ => .jf
  | .add _ _ _ => .add
  | .mult _ _ _ => .mult
  | .mod _ _ _ => .mod
  | .and _ _ _ => .and
  | .or _ _ _ => .or
  | .not _ _ => .not
  | .rmem _ _ => .rmem
  | .wmem _ _ => .wmem
  | .call _ => .call
  | .ret => .ret
  | .out _ => .out
  | .inp _ => .inp
  | .noop => .noop

/-- The operands of an instruction in the order of R47. -/
def Instr.operands : Instr → List Operand
  | .halt => []
  | .set d v => [d, v]
  | .push v => [v]
  | .pop d => [d]
  | .eq d a b => [d, a, b]
  | .gt d a b => [d, a, b]
  | .jmp t => [t]
  | .jt c t => [c, t]
  | .jf c t => [c, t]
  | .add d a b => [d, a, b]
  | .mult d a b => [d, a, b]
  | .mod d a b => [d, a, b]
  | .and d a b => [d, a, b]
  | .or d a b => [d, a, b]
  | .not d a => [d, a]
  | .rmem d a => [d, a]
  | .wmem a v => [a, v]
  | .call t => [t]
  | .ret => []
  | .out v => [v]
  | .inp d => [d]
  | .noop => []

/-- The length of an instruction in words (R45). -/
def Instr.length (i : Instr) : Nat := 1 + i.mnemonic.kinds.length

/-- The class of an operand word (R48). -/
def Operand.ofWord (w : CodeWord) : Operand :=
  if w.toNat < Config.regBase then .lit (w.setWidth 15)
  else if w.toNat < Config.regBase + Config.nregs then .reg (Fin.ofNat 8 (w.toNat - Config.regBase))
  else .invalid w

/-- The word of an operand (R48, R60). -/
def Operand.toWord : Operand → CodeWord
  | .lit v => v.setWidth 16
  | .reg r => BitVec.ofNat 16 (Config.regBase + r.val)
  | .invalid w => w

/-- Decode's opcode and length checks on the code words that stand from pc to the end of the code region, in the order
of R53: no word at all is a pc above 32767, an unknown opcode comes next, then an operand word that lies beyond the
region. Answers the instruction and the words after it; the operand checks are `Instr.operandFault`. -/
def decode : List CodeWord → Except Cause (Instr × List CodeWord)
  | [] => .error .pcOutOfRange
  | op :: rest =>
    match Mnemonic.ofOpcode op with
    | none => .error .illegalOpcode
    | some m =>
      match Instr.build m ((rest.take m.kinds.length).map Operand.ofWord) with
      | none => .error .pcOutOfRange
      | some i => .ok (i, rest.drop m.kinds.length)

/-- The check of one operand word (R49, R50). -/
def Kind.operandFault : Kind → Operand → Option Cause
  | .dst, o => if o.isDestination then none else some .invalidDestination
  | .val, o => if o.isValue then none else some .invalidOperand

/-- The first failing operand, from left to right, determines the fault (R56). -/
def firstOperandFault : List Kind → List Operand → Option Cause
  | k :: ks, o :: os =>
    match k.operandFault o with
    | some c => some c
    | none => firstOperandFault ks os
  | [], _ => none
  | _ :: _, [] => none

/-- The operand checks of Decode on an instruction (R53, R56). -/
def Instr.operandFault (i : Instr) : Option Cause := firstOperandFault i.mnemonic.kinds i.operands

/-- The whole of Decode (R53) on the words from pc to the end of the code region. -/
def decodeChecked (ws : List CodeWord) : Except Cause Instr :=
  match decode ws with
  | .error c => .error c
  | .ok (i, _) =>
    match i.operandFault with
    | some c => .error c
    | none => .ok i

/-- The words of an instruction: its opcode, then its operand words (R60). -/
def encode (i : Instr) : List CodeWord := i.mnemonic.opcode :: i.operands.map Operand.toWord

/-- The first n 16-bit words of a number whose bit 0 is the least significant bit of the first word. -/
def wordsOfNat : Nat → Nat → List CodeWord
  | 0, _ => []
  | n + 1, w => BitVec.ofNat 16 w :: wordsOfNat n (w / 65536)

/-- The words of an opcode-table row of nbits bits; the bits above them are 0. Four words are the longest instruction (R45). -/
def tableWords (nbits w : Nat) : List CodeWord := wordsOfNat 4 (w % 2 ^ nbits)

/-- The instruction the decoder reads from a row of the opcode table. It is `decode`, before the operand checks, so a row
whose destination word is left 0 still shows its instruction; running it raises InvalidDestination (log 17). -/
def decodeTableWord (nbits w : Nat) : Option Instr :=
  match decode (tableWords nbits w) with
  | .ok (i, _) => some i
  | .error _ => none

end Sys2Proof
end

