-- ==== Sys2Proof/Machine/Fetch.lean ====
section
/-! DEFINITION. Instruction fetch (30_encoding.md R53, 20_memory.md R41, R43): the code words from pc on, read from CODE at the moment of the step. -/

namespace Sys2Proof.Machine

/-- At most n code words from address a on; none lies beyond the code region. -/
def Memory.fetch (m : Memory) : Nat → Nat → List CodeWord
  | 0, _ => []
  | n + 1, a => if a < Config.codeSize then m.read a :: Memory.fetch m n (a + 1) else []

/-- The words Decode can need: the longest instruction has four (R45). -/
def State.fetch (s : State) : List CodeWord := s.code.fetch 4 s.pc.toNat

/-- Store words from address a on. -/
def Memory.place (m : Memory) : Nat → List CodeWord → Memory
  | _, [] => m
  | a, w :: ws => Memory.place (m.write a w) (a + 1) ws

end Sys2Proof.Machine
end

