-- ==== Sys2Proof/Machine/Reset.lean ====
section
/-! DEFINITION. Reset from a load record (70_reset_and_hazards.md R120, R121). The record is a word store over the unified
addresses 0..MEM_SIZE-1 of 10_state.md R25; words it does not list are 0, as the host's zero fill leaves them (log 16). -/

namespace Sys2Proof.Machine

/-- The register word L[32768 + i], or 0 where it is above 32767 (R121). -/
def loadReg (L : Memory) (i : Nat) : Value :=
  if (L.read (Config.regBase + i)).toNat ≤ 32767 then (L.read (Config.regBase + i)).setWidth 15 else 0

/-- A record is valid when every register word is at most 32767 and the sp word at most STACK_CAPACITY (R121). -/
def loadValid (memSize : Nat) (L : Memory) : Bool :=
  (List.range Config.nregs).all (fun i => decide ((L.read (Config.regBase + i)).toNat ≤ 32767)) &&
    decide ((L.read (memSize - 2)).toNat ≤ Config.stackCapacity memSize)

/-- Reset(L) (R120) with the check of R121. It replaces everything but MEM_SIZE and the host's streams; the request is
served. -/
def State.resetFrom (s : State) (L : Memory) : State :=
  { memSize := s.memSize
    regs := #v[loadReg L 0, loadReg L 1, loadReg L 2, loadReg L 3, loadReg L 4, loadReg L 5, loadReg L 6, loadReg L 7]
    pc := L.read (s.memSize - 1)
    sp := if (L.read (s.memSize - 2)).toNat ≤ s.cap then (L.read (s.memSize - 2)).toNat else 0
    stk := (L.filter (fun c => decide (Config.stackBase ≤ c.1 ∧ c.1 < Config.stackBase + s.cap))).map
      (fun c => (c.1 - Config.stackBase, c.2))
    code := L.filter (fun c => decide (c.1 < Config.codeSize))
    run := if loadValid s.memSize L then .running else .faulted .resetInvalid
    env := { s.env with resetRequest := none } }

end Sys2Proof.Machine
end

