-- ==== Sys2Proof/Machine/Step.lean ====
section
/-! DEFINITION. One step of the block (30_encoding.md R52): Decode, then the instruction, then its commit. -/

namespace Sys2Proof.Machine

/-- One step. A reset the host asks for is taken first, in any run state (R111, R115, R120; log 7). Halted and Faulted have
no step (R111). In Running, a Decode fault is entered on the state as it is (R52, R114), and otherwise the decoded
instruction runs. -/
def step (s : State) : Host.Outcome State Fault Refusal :=
  match s.env.resetRequest with
  | some L => .next (s.resetFrom L)
  | none =>
    match s.run with
    | .halted => .fault .halted
    | .faulted c => .fault (.faulted c)
    | .running =>
      match decodeChecked s.fetch with
      | .error c => .next (s.takeFault c)
      | .ok i => exec i s

/-- The address an instruction of four words is placed at: pc, or 0 where four words from pc would leave the code region. -/
def State.placeAddr (s : State) : Nat := if s.pc.toNat + 4 ≤ Config.codeSize then s.pc.toNat else 0

/-- The state in which the next step runs the instruction whose words are w (bits above nbits 0): its four words stand at
pc in CODE, the block is Running and no reset is pending. pc is kept unless four words do not fit there. This stands for
the host's load of a program (R120, log 4). -/
def State.withFetchWord (s : State) (nbits w : Nat) : State :=
  { s with
    pc := BitVec.ofNat 16 s.placeAddr
    code := s.code.place s.placeAddr (tableWords nbits w)
    run := .running
    env := { s.env with resetRequest := none } }

end Sys2Proof.Machine
end

