-- ==== Sys2Proof/Safety.lean ====
section
/-! DEFINITION. The words claims are stated in: the invariant of the block, what stands at pc, what an operand denotes,
the layout of a record, and what counts as a run and as a safe run. -/

namespace Sys2Proof.Machine

/-- The invariant: MEM_SIZE is admissible (R7), both stores are canonical and lie in their address ranges (R22, R24), sp is
at most STACK_CAPACITY (R21), and a pending load record is a canonical store of MEM_SIZE words (R120). That every
register holds a value in 0..32767 (R16) is its type. -/
structure State.Inv (s : State) : Prop where
  memSize_ge : Config.minMemSize ≤ s.memSize
  code_wf : Memory.wf Config.codeSize s.code
  stk_wf : Memory.wf s.cap s.stk
  sp_le : s.sp ≤ s.cap
  request_wf : ∀ L, s.env.resetRequest = some L → Memory.wf s.memSize L

/-- The block is Running and the host asks for no reset: the next step decodes at pc (R52). -/
def State.Ready (s : State) : Prop := s.run = .running ∧ s.env.resetRequest = none

/-- The words ws stand at pc, all inside the code region (R45). -/
def State.WordsAt (s : State) (ws : List CodeWord) : Prop :=
  s.pc.toNat + ws.length ≤ 32768 ∧ ∀ (k : Nat) (h : k < ws.length), s.code.read (s.pc.toNat + k) = ws[k]

/-- A word that is a register reference: the only legal destination word (R50). -/
def IsRegisterWord (w : CodeWord) : Prop := 32768 ≤ w.toNat ∧ w.toNat ≤ 32775

/-- A word that is a literal or a register reference: a legal value word (R49). -/
def IsValueWord (w : CodeWord) : Prop := w.toNat ≤ 32775

/-- The opcode word at pc. -/
def State.opcodeAt (s : State) : Nat := (s.code.read s.pc.toNat).toNat

/-- The word fits the operand position (R49, R50). -/
def Fits : Kind → CodeWord → Prop
  | .dst, w => IsRegisterWord w
  | .val, w => IsValueWord w

/-- The fault of a word that does not fit its position (R56). -/
def misfitCause : Kind → Cause
  | .dst => .invalidDestination
  | .val => .invalidOperand

/-- What a legal value operand denotes: a literal itself, a register reference the register's content (R48, R63). -/
inductive Denotes (s : State) : Operand → Value → Prop where
  | lit (v : Value) : Denotes s (.lit v) v
  | reg (r : RegIdx) : Denotes s (.reg r) (s.reg r)

/-- The destination operand of the twelve instructions that have one (R15, R64). -/
def destinationOf : Instr → Option Operand
  | .set d _ => some d
  | .pop d => some d
  | .eq d _ _ => some d
  | .gt d _ _ => some d
  | .add d _ _ => some d
  | .mult d _ _ => some d
  | .mod d _ _ => some d
  | .and d _ _ => some d
  | .or d _ _ => some d
  | .not d _ => some d
  | .rmem d _ => some d
  | .inp d => some d
  | .halt => none
  | .push _ => none
  | .jmp _ => none
  | .jt _ _ => none
  | .jf _ _ => none
  | .wmem _ _ => none
  | .call _ => none
  | .ret => none
  | .out _ => none
  | .noop => none

/-- The instructions that set pc themselves (R19, R87). -/
def transfersControl : Instr → Bool
  | .jmp _ => true
  | .jt _ _ => true
  | .jf _ _ => true
  | .call _ => true
  | .ret => true
  | .halt => false
  | .set _ _ => false
  | .push _ => false
  | .pop _ => false
  | .eq _ _ _ => false
  | .gt _ _ _ => false
  | .add _ _ _ => false
  | .mult _ _ _ => false
  | .mod _ _ _ => false
  | .and _ _ _ => false
  | .or _ _ _ => false
  | .not _ _ => false
  | .rmem _ _ => false
  | .wmem _ _ => false
  | .out _ => false
  | .inp _ => false
  | .noop => false

/-- The execute faults each instruction can raise (R113, item 5). -/
def executeCauses : Instr → List Cause
  | .push _ => [.stackOverflow]
  | .call _ => [.stackOverflow]
  | .pop _ => [.stackUnderflow, .valueOutOfRange]
  | .ret => [.stackUnderflow]
  | .mod _ _ _ => [.divideByZero]
  | .rmem _ _ => [.valueOutOfRange]
  | .inp _ => [.inputError, .inputEnd, .snapshotError]
  | .halt => []
  | .set _ _ => []
  | .eq _ _ _ => []
  | .gt _ _ _ => []
  | .jmp _ => []
  | .jt _ _ => []
  | .jf _ _ => []
  | .add _ _ _ => []
  | .mult _ _ _ => []
  | .and _ _ _ => []
  | .or _ _ _ => []
  | .not _ _ => []
  | .wmem _ _ => []
  | .out _ => []
  | .noop => []

/-- Every code word reads as before. -/
def SameCode (s t : State) : Prop := ∀ a, t.code.read a = s.code.read a

/-- Every stack slot reads as before. -/
def SameSlots (s t : State) : Prop := ∀ i, t.stk.read i = s.stk.read i

/-- Every register but those named by the operand d is as before. -/
def SameRegsBut (d : Operand) (s t : State) : Prop := ∀ q, d ≠ .reg q → t.reg q = s.reg q

/-- Every register is as before. -/
def SameRegs (s t : State) : Prop := ∀ q, t.reg q = s.reg q

/-- The run state is as before, or a fault was taken. -/
def SameRunOrFault (s t : State) : Prop := t.run = s.run ∨ ∃ c, t.run = .faulted c

/-- L is the record of the complete state s in the unified layout of R25, for a block whose sp fits a 16-bit word. -/
structure IsRecordOf (L : Memory) (s : State) : Prop where
  code : ∀ a, a < 32768 → L.read a = s.code.read a
  regs : ∀ r : RegIdx, (L.read (32768 + r.val)).toNat = (s.reg r).toNat
  stk : ∀ i, i < s.cap → L.read (32776 + i) = s.stk.read i
  sp : (L.read (s.memSize - 2)).toNat = s.sp
  pc : L.read (s.memSize - 1) = s.pc

/-- The states a run can reach from s. -/
inductive Reaches (s : State) : State → Prop where
  | refl : Reaches s s
  | step (t u : State) : Reaches s t → step t = .next u → Reaches s u

/-- A run from s is safe when no state it reaches is Faulted. -/
def SafeFrom (s : State) : Prop := ∀ t, Reaches s t → ∀ c, t.run ≠ .faulted c

/-- A list of instructions executed one after the other, stopping at the first that gives no next state. -/
def execAll : List Instr → State → Result
  | [], s => .next s
  | i :: is, s =>
    match exec i s with
    | .next t => execAll is t
    | .fault f => .fault f
    | .refused r => .refused r

end Sys2Proof.Machine
end

