-- ==== Sys2Proof/Certificates/Slice0/Obligations.lean ====
section
/-! DEFINITION. The statements for the provers, from the numbered rules of spec/. An instruction's result statement gives
its encoding (through the words of its operands) and the whole next state of exec, so everything it does not name is
unchanged there; the frame statements say what is unchanged on every operand form, the faulting ones included. -/

open Sys2Proof Sys2Proof.Machine

/-! ### Encoding and decode (30_encoding.md) -/

/-- Word lists written out from R47, R48 and R62: nine decode to the instruction they stand for, two whose first word is no
opcode (22, 32768) give IllegalOpcode (R55), and a SET cut off by the end of the region gives PcOutOfRange (R54). -/
def Obligations.SampleWordsDecode : Prop :=
  decode [9, 32769, 32768, 4] = .ok (.add (.reg 1) (.reg 0) (.lit 4), []) ∧
  decode [19, 65, 0] = .ok (.out (.lit 65), [0]) ∧
  decode [0] = .ok (.halt, []) ∧
  decode [1, 32775, 32767] = .ok (.set (.reg 7) (.lit 32767), []) ∧
  decode [2, 32771] = .ok (.push (.reg 3), []) ∧
  decode [5, 32770, 32767, 1] = .ok (.gt (.reg 2) (.lit 32767) (.lit 1), []) ∧
  decode [7, 32768, 50] = .ok (.jt (.reg 0) (.lit 50), []) ∧
  decode [16, 32769, 77] = .ok (.wmem (.reg 1) (.lit 77), []) ∧
  decode [20, 32768] = .ok (.inp (.reg 0), []) ∧
  decode [22] = .error .illegalOpcode ∧
  decode [32768] = .error .illegalOpcode ∧
  decode [1, 32768] = .error .pcOutOfRange

/-- R48: every operand word falls into exactly one class, with the value or the register it denotes. -/
def Obligations.OperandWordClasses : Prop :=
  ∀ w : CodeWord,
    (w.toNat ≤ 32767 → ∃ v : Value, Operand.ofWord w = .lit v ∧ v.toNat = w.toNat) ∧
    (32768 ≤ w.toNat → w.toNat ≤ 32775 → ∃ r : RegIdx, Operand.ofWord w = .reg r ∧ r.val = w.toNat - 32768) ∧
    (32776 ≤ w.toNat → Operand.ofWord w = .invalid w)

/-- Decoding the words of a well-formed instruction gives the instruction back and leaves what follows. -/
def Obligations.DecodeOfEncode : Prop :=
  ∀ (i : Instr) (rest : List CodeWord), i.wellFormed = true → decode (encode i ++ rest) = .ok (i, rest)

/-- Words that decode are exactly the words of the instruction they decode to: decoding drops no bit. -/
def Obligations.EncodeOfDecode : Prop :=
  ∀ (ws rest : List CodeWord) (i : Instr), decode ws = .ok (i, rest) → ws = encode i ++ rest

/-- The opcode map of R47, row by row: with the row's words at pc, its operands fitting their kinds, a step runs the row's
instruction. -/
def Obligations.OpcodeMapRuns : Prop :=
  ∀ (s : State) (w1 w2 w3 : CodeWord), s.Ready →
    (s.WordsAt [0] → step s = exec .halt s) ∧
    (s.WordsAt [1, w1, w2] → IsRegisterWord w1 → IsValueWord w2 →
      step s = exec (.set (.ofWord w1) (.ofWord w2)) s) ∧
    (s.WordsAt [2, w1] → IsValueWord w1 → step s = exec (.push (.ofWord w1)) s) ∧
    (s.WordsAt [3, w1] → IsRegisterWord w1 → step s = exec (.pop (.ofWord w1)) s) ∧
    (s.WordsAt [4, w1, w2, w3] → IsRegisterWord w1 → IsValueWord w2 → IsValueWord w3 →
      step s = exec (.eq (.ofWord w1) (.ofWord w2) (.ofWord w3)) s) ∧
    (s.WordsAt [5, w1, w2, w3] → IsRegisterWord w1 → IsValueWord w2 → IsValueWord w3 →
      step s = exec (.gt (.ofWord w1) (.ofWord w2) (.ofWord w3)) s) ∧
    (s.WordsAt [6, w1] → IsValueWord w1 → step s = exec (.jmp (.ofWord w1)) s) ∧
    (s.WordsAt [7, w1, w2] → IsValueWord w1 → IsValueWord w2 → step s = exec (.jt (.ofWord w1) (.ofWord w2)) s) ∧
    (s.WordsAt [8, w1, w2] → IsValueWord w1 → IsValueWord w2 → step s = exec (.jf (.ofWord w1) (.ofWord w2)) s) ∧
    (s.WordsAt [9, w1, w2, w3] → IsRegisterWord w1 → IsValueWord w2 → IsValueWord w3 →
      step s = exec (.add (.ofWord w1) (.ofWord w2) (.ofWord w3)) s) ∧
    (s.WordsAt [10, w1, w2, w3] → IsRegisterWord w1 → IsValueWord w2 → IsValueWord w3 →
      step s = exec (.mult (.ofWord w1) (.ofWord w2) (.ofWord w3)) s) ∧
    (s.WordsAt [11, w1, w2, w3] → IsRegisterWord w1 → IsValueWord w2 → IsValueWord w3 →
      step s = exec (.mod (.ofWord w1) (.ofWord w2) (.ofWord w3)) s) ∧
    (s.WordsAt [12, w1, w2, w3] → IsRegisterWord w1 → IsValueWord w2 → IsValueWord w3 →
      step s = exec (.and (.ofWord w1) (.ofWord w2) (.ofWord w3)) s) ∧
    (s.WordsAt [13, w1, w2, w3] → IsRegisterWord w1 → IsValueWord w2 → IsValueWord w3 →
      step s = exec (.or (.ofWord w1) (.ofWord w2) (.ofWord w3)) s) ∧
    (s.WordsAt [14, w1, w2] → IsRegisterWord w1 → IsValueWord w2 →
      step s = exec (.not (.ofWord w1) (.ofWord w2)) s) ∧
    (s.WordsAt [15, w1, w2] → IsRegisterWord w1 → IsValueWord w2 →
      step s = exec (.rmem (.ofWord w1) (.ofWord w2)) s) ∧
    (s.WordsAt [16, w1, w2] → IsValueWord w1 → IsValueWord w2 →
      step s = exec (.wmem (.ofWord w1) (.ofWord w2)) s) ∧
    (s.WordsAt [17, w1] → IsValueWord w1 → step s = exec (.call (.ofWord w1)) s) ∧
    (s.WordsAt [18] → step s = exec .ret s) ∧
    (s.WordsAt [19, w1] → IsValueWord w1 → step s = exec (.out (.ofWord w1)) s) ∧
    (s.WordsAt [20, w1] → IsRegisterWord w1 → step s = exec (.inp (.ofWord w1)) s) ∧
    (s.WordsAt [21] → step s = exec .noop s)

/-- When the words at pc decode to a well-formed instruction, the step of a Running block with no reset pending is exec of
it. The step adds nothing around exec: each meaning moves the pc itself. -/
def Obligations.StepRunsDecodedInstr : Prop :=
  ∀ (s : State) (i : Instr) (rest : List CodeWord),
    s.Ready → decode s.fetch = .ok (i, rest) → i.wellFormed = true → step s = exec i s

/-- R55: an opcode word of 22 or more faults IllegalOpcode, with pc left at it and everything else as before. -/
def Obligations.IllegalOpcodeFaults : Prop :=
  ∀ s : State, s.Ready → s.pc.toNat ≤ 32767 → 22 ≤ s.opcodeAt →
    step s = .next { s with run := .faulted .illegalOpcode }

/-- R54: PcOutOfRange when pc is 32768 or more, or when the last operand word lies at 32768 or more. -/
def Obligations.FetchBeyondRegionFaults : Prop :=
  ∀ s : State, s.Ready →
    (32768 ≤ s.pc.toNat → step s = .next { s with run := .faulted .pcOutOfRange }) ∧
    (∀ m : Mnemonic, s.pc.toNat ≤ 32767 → s.code.read s.pc.toNat = m.opcode →
      32768 ≤ s.pc.toNat + m.kinds.length → step s = .next { s with run := .faulted .pcOutOfRange })

/-- R56: with all its words in range, the first operand word from the left that does not fit its position determines the
fault, whatever the execute rule would check. -/
def Obligations.FirstBadOperandFaults : Prop :=
  ∀ (s : State) (m : Mnemonic) (ws : List CodeWord) (k : Nat) (hw : k < ws.length) (hk : k < m.kinds.length),
    s.Ready → s.WordsAt (m.opcode :: ws) → ws.length = m.kinds.length →
    (∀ (j : Nat) (hj : j < k), Fits (m.kinds[j]'(by omega)) (ws[j]'(by omega))) → ¬ Fits m.kinds[k] ws[k] →
    step s = .next { s with run := .faulted (misfitCause m.kinds[k]) }

/-! ### Move and stack (41_move_stack.md) -/

/-- R82. -/
def Obligations.SetCopiesValue : Prop :=
  ∀ (s : State) (r : RegIdx) (v : Operand) (x : Value), Denotes s v x →
    encode (.set (.reg r) v) = [1, Operand.toWord (.reg r), v.toWord] ∧
    exec (.set (.reg r) v) s = .next { s with regs := s.regs.set r x, pc := s.pc + 3 }

/-- R83: the value goes into slot sp, or StackOverflow on a full stack. Inv serves the reads of the store. -/
def Obligations.PushStoresAtSp : Prop :=
  ∀ (s : State) (v : Operand) (x : Value), s.Inv → Denotes s v x →
    encode (.push v) = [2, v.toWord] ∧
    (s.sp = s.memSize - 32776 - 2 → exec (.push v) s = .next { s with run := .faulted .stackOverflow }) ∧
    (s.sp ≠ s.memSize - 32776 - 2 → ∃ t, exec (.push v) s = .next t ∧ (t.stk.read s.sp).toNat = x.toNat ∧
      (∀ i, i ≠ s.sp → t.stk.read i = s.stk.read i) ∧
      t = { s with stk := t.stk, sp := s.sp + 1, pc := s.pc + 2 })

/-- R84: StackUnderflow on an empty stack, ValueOutOfRange on a top entry above 32767, and otherwise the top entry goes
into the register and sp goes down. -/
def Obligations.PopLoadsTop : Prop :=
  ∀ (s : State) (r : RegIdx),
    encode (.pop (.reg r)) = [3, Operand.toWord (.reg r)] ∧
    (s.sp = 0 → exec (.pop (.reg r)) s = .next { s with run := .faulted .stackUnderflow }) ∧
    (s.sp ≠ 0 → 32767 < (s.stk.read (s.sp - 1)).toNat →
      exec (.pop (.reg r)) s = .next { s with run := .faulted .valueOutOfRange }) ∧
    (s.sp ≠ 0 → ∀ x : Value, x.toNat = (s.stk.read (s.sp - 1)).toNat →
      exec (.pop (.reg r)) s = .next { s with regs := s.regs.set r x, sp := s.sp - 1, pc := s.pc + 2 })

/-! ### Comparison (42_compare.md) -/

/-- R85, R86 (R80, R81). -/
def Obligations.EqAndGtWriteZeroOrOne : Prop :=
  ∀ (s : State) (r : RegIdx) (a b : Operand) (x y : Value), Denotes s a x → Denotes s b y →
    encode (.eq (.reg r) a b) = [4, Operand.toWord (.reg r), a.toWord, b.toWord] ∧
    exec (.eq (.reg r) a b) s =
      .next { s with regs := s.regs.set r (if x.toNat = y.toNat then 1 else 0), pc := s.pc + 4 } ∧
    encode (.gt (.reg r) a b) = [5, Operand.toWord (.reg r), a.toWord, b.toWord] ∧
    exec (.gt (.reg r) a b) s =
      .next { s with regs := s.regs.set r (if x.toNat > y.toNat then 1 else 0), pc := s.pc + 4 }

/-! ### Control transfer (43_control.md) -/

/-- R88. -/
def Obligations.JmpSetsPc : Prop :=
  ∀ (s : State) (a : Operand) (x : Value), Denotes s a x →
    encode (.jmp a) = [6, a.toWord] ∧
    ∃ p : CodeWord, p.toNat = x.toNat ∧ exec (.jmp a) s = .next { s with pc := p }

/-- R89, R90. -/
def Obligations.JtAndJfTestCondition : Prop :=
  ∀ (s : State) (c a : Operand) (x y : Value), Denotes s c x → Denotes s a y →
    encode (.jt c a) = [7, c.toWord, a.toWord] ∧ encode (.jf c a) = [8, c.toWord, a.toWord] ∧
    ∃ p : CodeWord, p.toNat = y.toNat ∧
      (x.toNat ≠ 0 → exec (.jt c a) s = .next { s with pc := p } ∧ exec (.jf c a) s = .next { s with pc := s.pc + 3 }) ∧
      (x.toNat = 0 → exec (.jt c a) s = .next { s with pc := s.pc + 3 } ∧ exec (.jf c a) s = .next { s with pc := p })

/-- R91: the return address pc + 2 goes into slot sp and pc to the target, or StackOverflow on a full stack. The sum is
the exact 16-bit number for a pc that Decode lets pass. -/
def Obligations.CallPushesReturnAddress : Prop :=
  ∀ (s : State) (a : Operand) (x : Value), s.Inv → s.pc.toNat ≤ 32767 → Denotes s a x →
    encode (.call a) = [17, a.toWord] ∧
    (s.sp = s.memSize - 32776 - 2 → exec (.call a) s = .next { s with run := .faulted .stackOverflow }) ∧
    (s.sp ≠ s.memSize - 32776 - 2 → ∃ t, exec (.call a) s = .next t ∧
      (t.stk.read s.sp).toNat = s.pc.toNat + 2 ∧ (∀ i, i ≠ s.sp → t.stk.read i = s.stk.read i) ∧
      t.pc.toNat = x.toNat ∧ t = { s with stk := t.stk, sp := s.sp + 1, pc := t.pc })

/-- R92: the top entry goes into pc unchecked, or StackUnderflow on an empty stack. -/
def Obligations.RetTakesTopAsPc : Prop :=
  ∀ s : State,
    encode .ret = [18] ∧
    (s.sp = 0 → exec .ret s = .next { s with run := .faulted .stackUnderflow }) ∧
    (s.sp ≠ 0 → exec .ret s = .next { s with sp := s.sp - 1, pc := s.stk.read (s.sp - 1) })

/-! ### Arithmetic and logic (44_arith_logic.md) -/

/-- R93 (R74). -/
def Obligations.AddIsModulo32768 : Prop :=
  ∀ (s : State) (r : RegIdx) (a b : Operand) (x y : Value), Denotes s a x → Denotes s b y →
    encode (.add (.reg r) a b) = [9, Operand.toWord (.reg r), a.toWord, b.toWord] ∧
    ∃ z : Value, z.toNat = (x.toNat + y.toNat) % 32768 ∧
      exec (.add (.reg r) a b) s = .next { s with regs := s.regs.set r z, pc := s.pc + 4 }

/-- R94 (R75). -/
def Obligations.MultIsModulo32768 : Prop :=
  ∀ (s : State) (r : RegIdx) (a b : Operand) (x y : Value), Denotes s a x → Denotes s b y →
    encode (.mult (.reg r) a b) = [10, Operand.toWord (.reg r), a.toWord, b.toWord] ∧
    ∃ z : Value, z.toNat = (x.toNat * y.toNat) % 32768 ∧
      exec (.mult (.reg r) a b) s = .next { s with regs := s.regs.set r z, pc := s.pc + 4 }

/-- R95 (R76). -/
def Obligations.ModIsRemainderOrFault : Prop :=
  ∀ (s : State) (r : RegIdx) (a b : Operand) (x y : Value), Denotes s a x → Denotes s b y →
    encode (.mod (.reg r) a b) = [11, Operand.toWord (.reg r), a.toWord, b.toWord] ∧
    (y.toNat = 0 → exec (.mod (.reg r) a b) s = .next { s with run := .faulted .divideByZero }) ∧
    (y.toNat ≠ 0 → ∃ z : Value, z.toNat = x.toNat % y.toNat ∧
      exec (.mod (.reg r) a b) s = .next { s with regs := s.regs.set r z, pc := s.pc + 4 })

/-- R96, R97 (R77, R78). -/
def Obligations.AndAndOrAreBitwise : Prop :=
  ∀ (s : State) (r : RegIdx) (a b : Operand) (x y : Value), Denotes s a x → Denotes s b y →
    encode (.and (.reg r) a b) = [12, Operand.toWord (.reg r), a.toWord, b.toWord] ∧
    encode (.or (.reg r) a b) = [13, Operand.toWord (.reg r), a.toWord, b.toWord] ∧
    (∃ z : Value, (∀ k, k < 15 → z.getLsbD k = (x.getLsbD k && y.getLsbD k)) ∧
      exec (.and (.reg r) a b) s = .next { s with regs := s.regs.set r z, pc := s.pc + 4 }) ∧
    (∃ z : Value, (∀ k, k < 15 → z.getLsbD k = (x.getLsbD k || y.getLsbD k)) ∧
      exec (.or (.reg r) a b) s = .next { s with regs := s.regs.set r z, pc := s.pc + 4 })

/-- R98 (R79). -/
def Obligations.NotIsComplement : Prop :=
  ∀ (s : State) (r : RegIdx) (a : Operand) (x : Value), Denotes s a x →
    encode (.not (.reg r) a) = [14, Operand.toWord (.reg r), a.toWord] ∧
    ∃ z : Value, z.toNat = 32767 - x.toNat ∧
      exec (.not (.reg r) a) s = .next { s with regs := s.regs.set r z, pc := s.pc + 3 }

/-! ### Memory access (45_memory_access.md) -/

/-- R100: the word at the address goes into the register as it is, or ValueOutOfRange where it is above 32767. -/
def Obligations.RmemCopiesCodeWord : Prop :=
  ∀ (s : State) (r : RegIdx) (a : Operand) (x : Value), Denotes s a x →
    encode (.rmem (.reg r) a) = [15, Operand.toWord (.reg r), a.toWord] ∧
    (32767 < (s.code.read x.toNat).toNat →
      exec (.rmem (.reg r) a) s = .next { s with run := .faulted .valueOutOfRange }) ∧
    (∀ z : Value, z.toNat = (s.code.read x.toNat).toNat →
      exec (.rmem (.reg r) a) s = .next { s with regs := s.regs.set r z, pc := s.pc + 3 })

/-- R101: the value stands at the address and no other code word changes. Inv serves the reads of the store. -/
def Obligations.WmemStoresValue : Prop :=
  ∀ (s : State) (a v : Operand) (x y : Value), s.Inv → Denotes s a x → Denotes s v y →
    encode (.wmem a v) = [16, a.toWord, v.toWord] ∧
    ∃ t, exec (.wmem a v) s = .next t ∧ (t.code.read x.toNat).toNat = y.toNat ∧
      (∀ b, b ≠ x.toNat → t.code.read b = s.code.read b) ∧ t = { s with code := t.code, pc := s.pc + 3 }

/-! ### System and I/O (46_system_io.md) -/

/-- R105: Halted with pc at the HALT word and nothing else changed, and no step from there until a reset. -/
def Obligations.HaltStopsCleanly : Prop :=
  ∀ s : State,
    encode .halt = [0] ∧ exec .halt s = .next { s with run := .halted } ∧
    (s.env.resetRequest = none → ∀ t, step { s with run := .halted } ≠ .next t)

/-- R106 (R102): exactly one byte, the low 8 bits, is appended to the output stream. -/
def Obligations.OutEmitsLowByte : Prop :=
  ∀ (s : State) (v : Operand) (x : Value), Denotes s v x →
    encode (.out v) = [19, v.toWord] ∧
    ∃ (t : State) (b : Byte), exec (.out v) s = .next t ∧ b.toNat = x.toNat % 256 ∧
      t.env.output = s.env.output ++ [b] ∧
      t = { s with pc := s.pc + 2, env := { s.env with events := t.env.events } }

/-- R107, a byte other than the save trigger: it is consumed and stored, and pc advances. The host's answers as a list and
the record of what passed are the model's (log 5, log 6). -/
def Obligations.InStoresByte : Prop :=
  ∀ (s : State) (r : RegIdx) (b : Byte) (rest : List InputAnswer),
    s.env.input = .byte b :: rest → b.toNat ≠ 16 →
    encode (.inp (.reg r)) = [20, Operand.toWord (.reg r)] ∧
    ∃ x : Value, x.toNat = b.toNat ∧
      exec (.inp (.reg r)) s = .next { s with
        regs := s.regs.set r x, pc := s.pc + 2,
        env := { s.env with input := rest, events := s.env.events ++ [.input (.byte b)] } }

/-- R107, R104, the save trigger with the answer Ok: the record handed over is, in the layout of R25, the state the IN
commits. The record is stated for an sp that a 16-bit trailer word holds (log 11); the answers as a list, the order of the
two events and the one step are the model's (log 5, log 6, log 13). -/
def Obligations.InSavesOnTrigger : Prop :=
  ∀ (s : State) (r : RegIdx) (rest : List InputAnswer) (answers : List SnapshotAnswer),
    s.Inv → s.sp < 65536 → s.env.input = .byte 16 :: rest → s.env.snapshotAnswers = .ok :: answers →
    ∃ (t : State) (L : Memory), exec (.inp (.reg r)) s = .next t ∧ IsRecordOf L t ∧
      t = { s with
        regs := s.regs.set r 16, pc := s.pc + 2,
        env := { s.env with
          input := rest, snapshotAnswers := answers,
          events := s.env.events ++ [.input (.byte 16), .snapshot L .ok] } }

/-- R107, R114: a read error, the end of input and a failed save fault with x, pc, sp, STK and CODE unchanged, and the
answers consumed all the same; the record handed to a save that fails is that of the state the IN would have committed
(stated for an sp that a 16-bit trailer word holds, log 11). The answers as a list and the events are the model's (log 5,
log 6). -/
def Obligations.InFaultsKeepState : Prop :=
  ∀ (s : State) (r : RegIdx) (rest : List InputAnswer),
    (s.env.input = .error :: rest → exec (.inp (.reg r)) s = .next { s with
      run := .faulted .inputError,
      env := { s.env with input := rest, events := s.env.events ++ [.input .error] } }) ∧
    (s.env.input = .endOfInput :: rest → exec (.inp (.reg r)) s = .next { s with
      run := .faulted .inputEnd,
      env := { s.env with input := rest, events := s.env.events ++ [.input .endOfInput] } }) ∧
    (∀ answers, s.env.input = .byte 16 :: rest → s.env.snapshotAnswers = .error :: answers →
      ∃ L, (s.Inv → s.sp < 65536 → IsRecordOf L { s with regs := s.regs.set r 16, pc := s.pc + 2 }) ∧
        exec (.inp (.reg r)) s = .next { s with
        run := .faulted .snapshotError,
        env := { s.env with
          input := rest, snapshotAnswers := answers,
          events := s.env.events ++ [.input (.byte 16), .snapshot L .error] } })

/-- R29, R103, R104: while the host has not answered, IN has no step. That "no step" is a named stop, and that nothing is
consumed while the snapshot is unanswered, is the model's (log 5, log 13). -/
def Obligations.InWaitsForHost : Prop :=
  ∀ (s : State) (r : RegIdx),
    (s.env.input = [] → exec (.inp (.reg r)) s = .fault .awaitingInput) ∧
    (∀ rest, s.env.input = .byte 16 :: rest → s.env.snapshotAnswers = [] →
      exec (.inp (.reg r)) s = .fault .awaitingSnapshot)

/-- R108: only pc advances, by one; the sum is exact for a pc that Decode lets pass. -/
def Obligations.NoopOnlyAdvances : Prop :=
  ∀ s : State, s.pc.toNat ≤ 32767 →
    encode .noop = [21] ∧ ∃ p : CodeWord, p.toNat = s.pc.toNat + 1 ∧ exec .noop s = .next { s with pc := p }

/-- R19: an instruction with n operands that does not transfer control adds 1 + n to pc, with no wrap, and HALT leaves
it. -/
def Obligations.LinearAdvanceIsExact : Prop :=
  ∀ (i : Instr) (s t : State), s.run = .running → s.pc.toNat ≤ 32767 → exec i s = .next t → (∀ c, t.run ≠ .faulted c) →
    (i = .halt → t.pc = s.pc) ∧
    (i ≠ .halt → transfersControl i = false → t.pc.toNat = s.pc.toNat + 1 + i.operands.length)

/-! ### Frames -/

/-- SET, EQ, GT, ADD, MULT, MOD, AND, OR, NOT, RMEM: only the destination register and pc change; a fault changes run
alone. -/
def Obligations.ComputingFrame : Prop :=
  ∀ (i : Instr) (d : Operand) (s t : State),
    destinationOf i = some d → (∀ o, i ≠ .pop o) → (∀ o, i ≠ .inp o) → exec i s = .next t →
    SameRegsBut d s t ∧ t.sp = s.sp ∧ SameSlots s t ∧ SameCode s t ∧ t.env = s.env ∧ t.memSize = s.memSize ∧
      SameRunOrFault s t

/-- POP: only the destination register, sp and pc change. -/
def Obligations.PopFrame : Prop :=
  ∀ (d : Operand) (s t : State), exec (.pop d) s = .next t →
    SameRegsBut d s t ∧ (t.sp = s.sp ∨ t.sp = s.sp - 1) ∧ SameSlots s t ∧ SameCode s t ∧ t.env = s.env ∧
      t.memSize = s.memSize ∧ SameRunOrFault s t

/-- PUSH, CALL: every slot but slot sp, every register and every code word stay. -/
def Obligations.PushingFrame : Prop :=
  ∀ (i : Instr) (o : Operand) (s t : State), (i = .push o ∨ i = .call o) → exec i s = .next t →
    SameRegs s t ∧ (t.sp = s.sp ∨ t.sp = s.sp + 1) ∧ (∀ j, j ≠ s.sp → t.stk.read j = s.stk.read j) ∧
      SameCode s t ∧ t.env = s.env ∧ t.memSize = s.memSize ∧ SameRunOrFault s t

/-- HALT, JMP, JT, JF, RET, OUT, NOOP: no register, no slot and no code word changes; sp only in RET, the host's side only
in OUT and there only the events, run only in HALT or by a fault. -/
def Obligations.NoStoreFrame : Prop :=
  ∀ (i : Instr) (s t : State),
    (i = .halt ∨ i = .ret ∨ i = .noop ∨ (∃ o, i = .jmp o ∨ i = .out o) ∨ ∃ c o, i = .jt c o ∨ i = .jf c o) →
    exec i s = .next t →
    SameRegs s t ∧ SameSlots s t ∧ SameCode s t ∧ t.memSize = s.memSize ∧
      (t.sp = s.sp ∨ (i = .ret ∧ t.sp = s.sp - 1)) ∧
      (t.env = s.env ∨ ∃ o es, i = .out o ∧ t.env = { s.env with events := es }) ∧
      (SameRunOrFault s t ∨ (i = .halt ∧ t.run = .halted))

/-- WMEM: every code word but the one at the resolved address, every register and every slot stay. -/
def Obligations.WmemFrame : Prop :=
  ∀ (a v : Operand) (s t : State), exec (.wmem a v) s = .next t →
    (∀ b, (∀ x, val s a = .ok x → x.toNat ≠ b) → t.code.read b = s.code.read b) ∧
      SameRegs s t ∧ t.sp = s.sp ∧ SameSlots s t ∧ t.env = s.env ∧ t.memSize = s.memSize ∧ SameRunOrFault s t

/-- IN: only the destination register, pc and the host's side change, and there no reset request. -/
def Obligations.InFrame : Prop :=
  ∀ (d : Operand) (s t : State), exec (.inp d) s = .next t →
    SameRegsBut d s t ∧ t.sp = s.sp ∧ SameSlots s t ∧ SameCode s t ∧ t.env.resetRequest = s.env.resetRequest ∧
      t.memSize = s.memSize ∧ SameRunOrFault s t

/-! ### Rules about the whole machine -/

/-- R15: in a step that decodes, a register changes only where it is the destination operand of one of the twelve
instructions that have one. -/
def Obligations.OnlyDestinationsWriteRegisters : Prop :=
  ∀ (s t : State) (q : RegIdx), s.Ready → step s = .next t → t.reg q ≠ s.reg q →
    ∃ i, decodeChecked s.fetch = .ok i ∧ destinationOf i = some (.reg q)

/-- R23, which the spec marks as its own inference ("derived: from 20_memory.md rule R34 and 45_memory_access.md rule
R100"): only PUSH, POP, CALL and RET change the stack storage and sp. -/
def Obligations.OnlyStackInstrsReachStack : Prop :=
  ∀ s t : State, s.Ready → step s = .next t → (t.sp ≠ s.sp ∨ t.stk ≠ s.stk) →
    s.opcodeAt = 2 ∨ s.opcodeAt = 3 ∨ s.opcodeAt = 17 ∨ s.opcodeAt = 18

/-- R24, R101: a code word changes only in a WMEM, and then to a value: no step makes a register reference in code. -/
def Obligations.OnlyWmemWritesCode : Prop :=
  ∀ (s t : State) (a : Nat), s.Inv → s.Ready → step s = .next t → t.code.read a ≠ s.code.read a →
    s.opcodeAt = 16 ∧ a < 32768 ∧ (t.code.read a).toNat ≤ 32767

/-- R116, R103, R104: a Running block always has a next state unless it stands at an IN the host has not answered; no
other instruction suspends and none is refused. The named stops are the model's form of "no step" (log 5). -/
def Obligations.OnlyInSuspends : Prop :=
  ∀ s : State, s.Ready →
    (∃ t, step s = .next t) ∨
    (s.opcodeAt = 20 ∧ s.env.input = [] ∧ step s = .fault .awaitingInput) ∨
    (s.opcodeAt = 20 ∧ (∃ rest, s.env.input = .byte 16 :: rest) ∧ s.env.snapshotAnswers = [] ∧
      step s = .fault .awaitingSnapshot)

/-- R10, R114: whatever raises it, a fault leaves every register, pc, sp, code word and stack slot as before. -/
def Obligations.FaultsArePrecise : Prop :=
  ∀ (s t : State) (c : Cause), s.Ready → step s = .next t → t.run = .faulted c →
    t = { s with run := .faulted c, env := t.env }

/-- R113, item 5: a well-formed instruction faults only for the causes its rule lists. -/
def Obligations.ExecuteFaultsAreListed : Prop :=
  ∀ (i : Instr) (s t : State) (c : Cause), i.wellFormed = true → s.run = .running → exec i s = .next t →
    t.run = .faulted c → c ∈ executeCauses i

/-- R111, R115: Halted and Faulted have no step, and only a reset leaves them. The named stops and the pending reset are
the model's form (log 7, log 8). -/
def Obligations.TerminalUntilReset : Prop :=
  ∀ s : State,
    (s.env.resetRequest = none → s.run = .halted → step s = .fault .halted) ∧
    (∀ c, s.env.resetRequest = none → s.run = .faulted c → step s = .fault (.faulted c)) ∧
    (∀ t, s.run ≠ .running → step s = .next t → ∃ L, s.env.resetRequest = some L ∧ t = s.resetFrom L)

/-- R102, R103, R104, R114: what passes the ports in one step: nothing, one byte out of an OUT, or in an IN exactly one
answer consumed, with at most one snapshot. The list of what passed is the model's (log 6). -/
def Obligations.PortTrafficOfAStep : Prop :=
  ∀ s t : State, s.Ready → step s = .next t →
    (t.env = s.env) ∨
    (s.opcodeAt = 19 ∧ ∃ b, t.env = { s.env with events := s.env.events ++ [.emit b] }) ∨
    (s.opcodeAt = 20 ∧ ∃ a rest, s.env.input = a :: rest ∧
      (t.env = { s.env with input := rest, events := s.env.events ++ [.input a] } ∨
       ∃ L ans answers, a = .byte 16 ∧ s.env.snapshotAnswers = ans :: answers ∧
         t.env = { s.env with
           input := rest, snapshotAnswers := answers, events := s.env.events ++ [.input a, .snapshot L ans] }))

/-- R20, which the spec marks as derived from R19, R91 and R92: pc leaves the region only by a linear advance from its
end, which reaches 32768 (the range check of R54 keeps it below R20's bound 32771), or by RET; otherwise it stood there
already and the step faulted. -/
def Obligations.PcBeyondRegion : Prop :=
  ∀ s t : State, s.Ready → step s = .next t → 32768 ≤ t.pc.toNat →
    (t.pc = s.pc ∧ t.run = .faulted .pcOutOfRange) ∨
    (t.pc.toNat = 32768 ∧ ∃ i, decodeChecked s.fetch = .ok i ∧ s.pc.toNat + i.length = 32768) ∨
    (s.opcodeAt = 18 ∧ s.sp ≠ 0 ∧ t.pc = s.stk.read (s.sp - 1))

/-- Every step keeps the invariant: MEM_SIZE admissible and unchanged, both stores canonical and inside their ranges, sp
at most STACK_CAPACITY (R7, R21, R22, R24). -/
def Obligations.StepKeepsInvariant : Prop :=
  ∀ s t : State, s.Inv → step s = .next t → t.Inv ∧ t.memSize = s.memSize

/-! ### Reset and snapshot (70_reset_and_hazards.md) -/

/-- The state after reset meets the invariant and is ready to step. Which record it is loaded from is the model's choice
(log 4). -/
def Obligations.ResetMeetsInvariant : Prop :=
  State.reset.Inv ∧ State.reset.Ready

/-- R120: a reset from a valid record loads every field from it. How the host asks for it is the model's (log 7). -/
def Obligations.ResetLoadsRecord : Prop :=
  ∀ (s : State) (L : Memory), s.env.resetRequest = some L →
    (∀ r : RegIdx, (L.read (32768 + r.val)).toNat ≤ 32767) →
    (L.read (s.memSize - 2)).toNat ≤ s.memSize - 32776 - 2 →
    ∃ t, step s = .next t ∧
      (∀ a, a < 32768 → t.code.read a = L.read a) ∧
      (∀ r : RegIdx, (t.reg r).toNat = (L.read (32768 + r.val)).toNat) ∧
      (∀ i, i < s.memSize - 32776 - 2 → t.stk.read i = L.read (32776 + i)) ∧
      t.sp = (L.read (s.memSize - 2)).toNat ∧ t.pc = L.read (s.memSize - 1) ∧ t.run = .running ∧
      t.memSize = s.memSize ∧ t.env = { s.env with resetRequest := none }

/-- R121: an invalid record gives Faulted(ResetInvalid), each invalid field 0 and every other field as R120 loads it. How
the host asks for the reset is the model's (log 7). -/
def Obligations.InvalidRecordFaults : Prop :=
  ∀ (s : State) (L : Memory), s.env.resetRequest = some L →
    ((∃ r : RegIdx, 32767 < (L.read (32768 + r.val)).toNat) ∨
      s.memSize - 32776 - 2 < (L.read (s.memSize - 2)).toNat) →
    ∃ t, step s = .next t ∧ t.run = .faulted .resetInvalid ∧
      (∀ r : RegIdx, 32767 < (L.read (32768 + r.val)).toNat → t.reg r = 0) ∧
      (∀ r : RegIdx, (L.read (32768 + r.val)).toNat ≤ 32767 → (t.reg r).toNat = (L.read (32768 + r.val)).toNat) ∧
      (s.memSize - 32776 - 2 < (L.read (s.memSize - 2)).toNat → t.sp = 0) ∧
      ((L.read (s.memSize - 2)).toNat ≤ s.memSize - 32776 - 2 → t.sp = (L.read (s.memSize - 2)).toNat) ∧
      (∀ a, a < 32768 → t.code.read a = L.read a) ∧
      (∀ i, i < s.memSize - 32776 - 2 → t.stk.read i = L.read (32776 + i)) ∧ t.pc = L.read (s.memSize - 1)

/-- R122, the column of a fresh image: a record that holds a program's words from address 0 and zeros elsewhere gives
those code words and zeros beyond, registers, slots, sp and pc 0, Running. How the host asks for it is the model's (log
7). -/
def Obligations.FreshImageReset : Prop :=
  ∀ (s : State) (ws : List CodeWord), 32778 ≤ s.memSize → ws.length ≤ 32768 →
    s.env.resetRequest = some (Memory.place [] 0 ws) →
    ∃ t, step s = .next t ∧
      (∀ a, a < 32768 → t.code.read a = ws.getD a 0) ∧ (∀ r, t.reg r = 0) ∧ (∀ i, t.stk.read i = 0) ∧
      t.sp = 0 ∧ t.pc = 0 ∧ t.run = .running

/-- R124, which the spec marks as derived from R120 and R107: resetting any block of the same MEM_SIZE from the record
that a save-trigger IN handed over gives back x, pc, sp, STK and CODE exactly as that IN committed them, Running. Stated
for an sp that a 16-bit trailer word holds (log 11). How the
host asks for the reset is the model's (log 7). -/
def Obligations.ResumeFromSnapshot : Prop :=
  ∀ (s t u : State) (r : RegIdx) (rest : List InputAnswer) (answers : List SnapshotAnswer) (L : Memory) (es : List Event),
    s.Inv → s.sp < 65536 → s.env.input = .byte 16 :: rest → s.env.snapshotAnswers = .ok :: answers →
    exec (.inp (.reg r)) s = .next t → t.env.events = es ++ [.snapshot L .ok] →
    u.memSize = s.memSize → u.env.resetRequest = some L →
    ∃ v, step u = .next v ∧ v.regs = t.regs ∧ v.pc = t.pc ∧ v.sp = t.sp ∧ v.stk = t.stk ∧ v.code = t.code ∧
      v.run = .running

/-! ### Sequences of instructions, and the host's view -/

/-- R91, R92: a CALL and the RET that follows resume at the word after the CALL, with sp and the registers as before. -/
def Obligations.CallThenRetResumes : Prop :=
  ∀ (s : State) (a : Operand) (x : Value), s.Inv → s.pc.toNat ≤ 32767 → Denotes s a x → s.sp < s.cap →
    ∃ t, execAll [.call a, .ret] s = .next t ∧ t.pc.toNat = s.pc.toNat + 2 ∧ t.sp = s.sp ∧ SameRegs s t ∧ SameCode s t ∧
      t.run = s.run

/-- R84's stack discipline: N pushes of registers and then N pops of the same registers in reverse order restore the
registers, the code and sp. -/
def Obligations.PushesThenPopsRestore : Prop :=
  ∀ (s : State) (rs : List RegIdx), s.Inv → s.sp + rs.length ≤ s.cap →
    ∃ t, execAll (rs.map (fun r => Instr.push (.reg r)) ++ rs.reverse.map (fun r => Instr.pop (.reg r))) s = .next t ∧
      t.regs = s.regs ∧ t.code = s.code ∧ t.sp = s.sp ∧ t.run = s.run ∧ t.env = s.env

/-- R43, which the spec marks as derived from R41: a WMEM to the word that is fetched next is seen by that fetch: a word
of 22 or more faults there, 0 halts. -/
def Obligations.WmemSeenByNextFetch : Prop :=
  ∀ (s : State) (a v : Operand) (x y : Value), s.Inv → s.Ready → Denotes s a x → Denotes s v y →
    s.pc.toNat + 3 = x.toNat →
    ∃ t, exec (.wmem a v) s = .next t ∧
      (22 ≤ y.toNat → step t = .next { t with run := .faulted .illegalOpcode }) ∧
      (y.toNat = 0 → step t = .next { t with run := .halted })

/-- R109: the status pair tells every run state from every other, with the codes of the table. -/
def Obligations.StatusTellsOutcomes : Prop :=
  ∀ s t : State, (s.status = t.status ↔ s.run = t.run) ∧
    (s.run = .running → s.status = (0, 0)) ∧ (s.run = .halted → s.status = (1, 0)) ∧
    (s.run = .faulted .stackUnderflow → s.status = (2, 1)) ∧ (s.run = .faulted .inputError → s.status = (2, 2)) ∧
    (s.run = .faulted .snapshotError → s.status = (2, 3)) ∧ (s.run = .faulted .inputEnd → s.status = (2, 4)) ∧
    (s.run = .faulted .illegalOpcode → s.status = (2, 5)) ∧ (s.run = .faulted .invalidOperand → s.status = (2, 6)) ∧
    (s.run = .faulted .invalidDestination → s.status = (2, 7)) ∧ (s.run = .faulted .pcOutOfRange → s.status = (2, 8)) ∧
    (s.run = .faulted .divideByZero → s.status = (2, 9)) ∧ (s.run = .faulted .stackOverflow → s.status = (2, 10)) ∧
    (s.run = .faulted .valueOutOfRange → s.status = (2, 11)) ∧ (s.run = .faulted .resetInvalid → s.status = (2, 12))

/-- The instruction whose words the host's load places where the next step fetches is the one that step runs. The
model's own interface (log 4). -/
def Obligations.PlacedWordsRunNext : Prop :=
  ∀ (s : State) (nbits w : Nat) (i : Instr), Memory.wf 32768 s.code → decodeTableWord nbits w = some i →
    i.wellFormed = true → step (s.withFetchWord nbits w) = exec i (s.withFetchWord nbits w)
end

