-- ==== Sys2Proof/Laws/Decode.lean ====
section
/-! SUPPORT. The laws of operand words, of the opcode map and of the decoder. -/

namespace Sys2Proof

theorem Operand.toWord_lit_toNat (v : Value) : (Operand.toWord (.lit v)).toNat = v.toNat := by
  simp only [Operand.toWord, BitVec.toNat_setWidth]
  omega

theorem Operand.toWord_reg_toNat (r : RegIdx) : (Operand.toWord (.reg r)).toNat = 32768 + r.val := by
  simp only [Operand.toWord, Config.regBase, BitVec.toNat_ofNat]
  omega

/-- The class of a word below 32768 (R48). -/
theorem Operand.ofWord_literal (w : CodeWord) (h : w.toNat < 32768) : Operand.ofWord w = .lit (w.setWidth 15) := by
  simp [Operand.ofWord, Config.regBase, h]

/-- The class of a word 32768..32775 (R48). -/
theorem Operand.ofWord_register (w : CodeWord) (r : RegIdx) (h : w.toNat = 32768 + r.val) :
    Operand.ofWord w = .reg r := by
  have hr := r.isLt
  have hn : Fin.ofNat 8 (w.toNat - 32768) = r := Fin.ext (by simp only [Fin.ofNat]; omega)
  have h1 : ¬ w.toNat < Config.regBase := by simp only [Config.regBase]; omega
  have h2 : w.toNat < Config.regBase + Config.nregs := by simp only [Config.regBase, Config.nregs]; omega
  rw [Operand.ofWord, if_neg h1, if_pos h2]
  exact congrArg Operand.reg hn

/-- The class of a word 32776..65535 (R48). -/
theorem Operand.ofWord_invalid (w : CodeWord) (h : 32776 ≤ w.toNat) : Operand.ofWord w = .invalid w := by
  have h1 : ¬ w.toNat < Config.regBase := by simp only [Config.regBase]; omega
  have h2 : ¬ w.toNat < Config.regBase + Config.nregs := by simp only [Config.regBase, Config.nregs]; omega
  rw [Operand.ofWord, if_neg h1, if_neg h2]

/-- No bit of an operand word is lost. -/
@[simp] theorem Operand.toWord_ofWord (w : CodeWord) : (Operand.ofWord w).toWord = w := by
  by_cases h1 : w.toNat < 32768
  · rw [Operand.ofWord_literal w h1]
    apply BitVec.eq_of_toNat_eq
    simp only [Operand.toWord, BitVec.toNat_setWidth]
    omega
  · by_cases h2 : w.toNat < 32776
    · rw [Operand.ofWord_register w ⟨w.toNat - 32768, by omega⟩ (by simp only; omega)]
      apply BitVec.eq_of_toNat_eq
      rw [Operand.toWord_reg_toNat]
      simp only
      omega
    · rw [Operand.ofWord_invalid w (by omega)]
      rfl

/-- A literal or a register reference comes back from its word. -/
theorem Operand.ofWord_toWord (o : Operand) (h : o.isValue = true) : Operand.ofWord o.toWord = o := by
  cases o with
  | lit v =>
    rw [Operand.ofWord_literal _ (by rw [Operand.toWord_lit_toNat]; omega)]
    congr 1
    apply BitVec.eq_of_toNat_eq
    simp only [Operand.toWord, BitVec.toNat_setWidth]
    omega
  | reg r => exact Operand.ofWord_register _ r (Operand.toWord_reg_toNat r)
  | invalid w => cases h

theorem Operand.isValue_of_isDestination {o : Operand} (h : o.isDestination = true) : o.isValue = true := by
  cases o <;> simp_all [Operand.isDestination, Operand.isValue]

/-- A word is a register reference exactly when it lies in 32768..32775 (R50). -/
theorem Operand.isDestination_ofWord (w : CodeWord) :
    (Operand.ofWord w).isDestination = true ↔ 32768 ≤ w.toNat ∧ w.toNat ≤ 32775 := by
  by_cases h1 : w.toNat < 32768
  · rw [Operand.ofWord_literal w h1]
    simp only [Operand.isDestination, Bool.false_eq_true, false_iff]
    omega
  · by_cases h2 : w.toNat < 32776
    · rw [Operand.ofWord_register w ⟨w.toNat - 32768, by omega⟩ (by simp only; omega)]
      simp only [Operand.isDestination, true_iff]
      omega
    · rw [Operand.ofWord_invalid w (by omega)]
      simp only [Operand.isDestination, Bool.false_eq_true, false_iff]
      omega

/-- A word is a legal value operand exactly when it is at most 32775 (R49). -/
theorem Operand.isValue_ofWord (w : CodeWord) : (Operand.ofWord w).isValue = true ↔ w.toNat ≤ 32775 := by
  by_cases h1 : w.toNat < 32768
  · rw [Operand.ofWord_literal w h1]
    simp only [Operand.isValue, true_iff]
    omega
  · by_cases h2 : w.toNat < 32776
    · rw [Operand.ofWord_register w ⟨w.toNat - 32768, by omega⟩ (by simp only; omega)]
      simp only [Operand.isValue, true_iff]
      omega
    · rw [Operand.ofWord_invalid w (by omega)]
      simp only [Operand.isValue, Bool.false_eq_true, false_iff]
      omega

@[simp] theorem Mnemonic.ofOpcode_opcode (m : Mnemonic) : Mnemonic.ofOpcode m.opcode = some m := by
  cases m <;> decide

/-- The opcode map is unambiguous: a word selects the row whose opcode it is. -/
theorem Mnemonic.opcode_of_ofOpcode {w : CodeWord} {m : Mnemonic} (h : Mnemonic.ofOpcode w = some m) :
    m.opcode = w := by
  have := List.find?_some h
  simpa using this

theorem Mnemonic.opcode_le (m : Mnemonic) : m.opcode.toNat ≤ 21 := by
  cases m <;> decide

theorem Mnemonic.kinds_length_le (m : Mnemonic) : m.kinds.length ≤ 3 := by
  cases m <;> decide

theorem Mnemonic.mem_all (m : Mnemonic) : m ∈ Mnemonic.all := by
  cases m <;> decide

/-- Every opcode number up to 21 is some row's. -/
theorem Mnemonic.exists_opcode : ∀ n : Fin 22, ∃ m : Mnemonic, m.opcode = BitVec.ofNat 16 n.val := by
  intro n
  have : ∀ n : Fin 22, (Mnemonic.all.any fun m => m.opcode == BitVec.ofNat 16 n.val) = true := by decide
  obtain ⟨m, -, hm⟩ := List.any_eq_true.1 (this n)
  exact ⟨m, by simpa using hm⟩

/-- An opcode word is illegal exactly when it is 22 or more (R46, R55). -/
theorem Mnemonic.ofOpcode_eq_none (w : CodeWord) : Mnemonic.ofOpcode w = none ↔ 22 ≤ w.toNat := by
  constructor
  · intro h
    by_contra hw
    obtain ⟨m, hm⟩ := Mnemonic.exists_opcode ⟨w.toNat, by omega⟩
    have : m.opcode = w := by rw [hm]; simp
    rw [← this, Mnemonic.ofOpcode_opcode] at h
    cases h
  · intro h
    cases ho : Mnemonic.ofOpcode w with
    | none => rfl
    | some m =>
      have := m.opcode_le
      rw [Mnemonic.opcode_of_ofOpcode ho] at this
      omega

@[simp] theorem Instr.operands_length (i : Instr) : i.operands.length = i.mnemonic.kinds.length := by
  cases i <;> rfl

@[simp] theorem Instr.build_operands (i : Instr) : Instr.build i.mnemonic i.operands = some i := by
  cases i <;> rfl

/-- Building an instruction and taking it apart are inverse. -/
theorem Instr.of_build {m : Mnemonic} {os : List Operand} {i : Instr} (h : Instr.build m os = some i) :
    i.mnemonic = m ∧ i.operands = os := by
  unfold Instr.build at h
  split at h <;> first | (cases h; exact ⟨rfl, rfl⟩) | cases h

/-- A row can be built from operands exactly when there are as many as it takes. -/
theorem Instr.build_isSome (m : Mnemonic) (os : List Operand) (h : os.length = m.kinds.length) :
    ∃ i, Instr.build m os = some i := by
  cases m <;>
    (match os with
      | [] => first | exact ⟨_, rfl⟩ | cases h
      | [_] => first | exact ⟨_, rfl⟩ | cases h
      | [_, _] => first | exact ⟨_, rfl⟩ | cases h
      | [_, _, _] => first | exact ⟨_, rfl⟩ | cases h
      | _ :: _ :: _ :: _ :: _ => simp [Mnemonic.kinds] at h)

theorem Instr.build_none {m : Mnemonic} {os : List Operand} (h : os.length ≠ m.kinds.length) :
    Instr.build m os = none := by
  cases hb : Instr.build m os with
  | none => rfl
  | some i =>
    obtain ⟨hm, ho⟩ := Instr.of_build hb
    rw [← ho, ← hm] at h
    simp at h

theorem decode_nil : decode [] = .error .pcOutOfRange := rfl

/-- An unknown opcode word is rejected before anything is said about length (R53, R113). -/
theorem decode_illegal (w : CodeWord) (ws : List CodeWord) (h : 22 ≤ w.toNat) :
    decode (w :: ws) = .error .illegalOpcode := by
  simp [decode, (Mnemonic.ofOpcode_eq_none w).2 h]

/-- Too few operand words are a range fault (R54). -/
theorem decode_short (m : Mnemonic) (ws : List CodeWord) (h : ws.length < m.kinds.length) :
    decode (m.opcode :: ws) = .error .pcOutOfRange := by
  have : Instr.build m ((ws.take m.kinds.length).map Operand.ofWord) = none :=
    Instr.build_none (by simp; omega)
  simp only [decode, Mnemonic.ofOpcode_opcode, this]

/-- With all its operand words there, a row decodes to the instruction built from their classes. -/
theorem decode_build (m : Mnemonic) (ws rest : List CodeWord) (i : Instr)
    (h : Instr.build m (ws.map Operand.ofWord) = some i) : decode (m.opcode :: (ws ++ rest)) = .ok (i, rest) := by
  obtain ⟨hm, ho⟩ := Instr.of_build h
  have hl : m.kinds.length = ws.length := by rw [← hm, ← Instr.operands_length, ho, List.length_map]
  simp [decode, hl, h]

/-- What a successful decoding says of the words. -/
theorem decode_ok {ws rest : List CodeWord} {i : Instr} (h : decode ws = .ok (i, rest)) :
    ∃ os : List CodeWord, ws = i.mnemonic.opcode :: (os ++ rest) ∧ os.map Operand.ofWord = i.operands := by
  cases ws with
  | nil => cases h
  | cons w ws =>
    cases hm : Mnemonic.ofOpcode w with
    | none => simp [decode, hm] at h
    | some m =>
      cases hb : Instr.build m ((ws.take m.kinds.length).map Operand.ofWord) with
      | none => simp only [decode, hm, hb, reduceCtorEq] at h
      | some j =>
        simp only [decode, hm, hb, Except.ok.injEq, Prod.mk.injEq] at h
        obtain ⟨rfl, rfl⟩ := h
        obtain ⟨h1, h2⟩ := Instr.of_build hb
        refine ⟨ws.take m.kinds.length, ?_, h2.symm⟩
        rw [h1, Mnemonic.opcode_of_ofOpcode hm, List.take_append_drop]

/-- The operand checks pass exactly on well-formed instructions. -/
theorem Instr.operandFault_eq_none (i : Instr) : i.operandFault = none ↔ i.wellFormed = true := by
  cases i <;>
    simp only [Instr.operandFault, Instr.mnemonic, Instr.operands, Mnemonic.kinds, firstOperandFault,
      Kind.operandFault, Instr.wellFormed, Bool.and_eq_true] <;>
    (repeat' split) <;> simp_all

/-- Operands that fit have no fault. -/
theorem firstOperandFault_none_cons (k : Kind) (ks : List Kind) (o : Operand) (os : List Operand)
    (h : k.operandFault o = none) : firstOperandFault (k :: ks) (o :: os) = firstOperandFault ks os := by
  simp [firstOperandFault, h]

end Sys2Proof
end

