-- ==== Sys2Proof/Laws/Memory.lean ====
section
/-! SUPPORT. The laws of word stores: what is read after a write, that every operation keeps the canonical form, and that
a canonical store is determined by its reads. -/

namespace Sys2Proof.Machine.Memory

@[simp] theorem read_nil (a : Nat) : Memory.read [] a = unlisted := rfl

theorem read_cons (b a : Nat) (u : CodeWord) (m : Memory) :
    Memory.read ((b, u) :: m) a = if b = a then u else Memory.read m a := rfl

/-- An address that no cell carries reads as unlisted. -/
theorem read_of_not_mem (m : Memory) (a : Nat) (h : ∀ c ∈ m, c.1 ≠ a) : Memory.read m a = unlisted := by
  induction m with
  | nil => rfl
  | cons c m ih =>
    obtain ⟨b, u⟩ := c
    rw [read_cons, if_neg (h (b, u) (by simp)), ih fun c hc => h c (by simp [hc])]

theorem read_append (m n : Memory) (a : Nat) :
    Memory.read (m ++ n) a = if ∃ c ∈ m, c.1 = a then Memory.read m a else Memory.read n a := by
  induction m with
  | nil => simp
  | cons c m ih =>
    obtain ⟨b, u⟩ := c
    simp only [List.cons_append, read_cons, ih, List.mem_cons, exists_eq_or_imp]
    by_cases hb : b = a <;> simp [hb]

/-- Below the addresses of the right part, only the left part is read. -/
theorem read_append_left (m n : Memory) (a : Nat) (h : ∀ c ∈ n, c.1 ≠ a) :
    Memory.read (m ++ n) a = Memory.read m a := by
  rw [read_append]
  split
  · rfl
  · next hm => rw [read_of_not_mem n a h, read_of_not_mem m a fun c hc e => hm ⟨c, hc, e⟩]

/-- Beyond the addresses of the left part, only the right part is read. -/
theorem read_append_right (m n : Memory) (a : Nat) (h : ∀ c ∈ m, c.1 ≠ a) :
    Memory.read (m ++ n) a = Memory.read n a := by
  rw [read_append, if_neg]
  rintro ⟨c, hc, e⟩
  exact h c hc e

@[simp] theorem read_cell_same (a : Nat) (v : CodeWord) : Memory.read (cell a v) a = v := by
  unfold cell
  split
  · next h => simp [h]
  · simp [read_cons]

theorem mem_cell {a : Nat} {v : CodeWord} {c : Cell} : c ∈ cell a v ↔ c = (a, v) ∧ v ≠ unlisted := by
  unfold cell
  split <;> simp_all

/-- A read after a write to the same address gives the word written. -/
theorem read_write_same (m : Memory) (a : Nat) (v : CodeWord) (h : m.Pairwise fun c d => c.1 < d.1) :
    (m.write a v).read a = v := by
  induction m with
  | nil => simp [write]
  | cons c m ih =>
    obtain ⟨b, u⟩ := c
    rw [List.pairwise_cons] at h
    have later : ∀ c ∈ m, b < c.1 := fun c hc => h.1 c hc
    rw [write]
    split
    · next hb => rw [read_cons, if_neg (by omega), ih h.2]
    · split
      · next hb =>
        rw [read_append_left _ _ _ fun c hc => by have := later c hc; omega, read_cell_same]
      · next hba hne =>
        rw [read_append_left, read_cell_same]
        intro c hc
        rcases List.mem_cons.1 hc with rfl | hc
        · exact hne
        · have := later c hc; omega

/-- A write leaves every other address alone. -/
theorem read_write_ne (m : Memory) (a b : Nat) (v : CodeWord) (hab : b ≠ a) : (m.write a v).read b = m.read b := by
  have hcell : ∀ c ∈ cell a v, c.1 ≠ b := fun c hc e => hab (by rw [← e, (mem_cell.1 hc).1])
  induction m with
  | nil => exact read_of_not_mem _ _ hcell
  | cons c m ih =>
    obtain ⟨d, u⟩ := c
    rw [write]
    split
    · rw [read_cons, read_cons, ih]
    · split
      · next hd => rw [read_append_right _ _ _ hcell, read_cons, if_neg (by omega)]
      · rw [read_append_right _ _ _ hcell]

theorem read_write (m : Memory) (a b : Nat) (v : CodeWord) (h : m.Pairwise fun c d => c.1 < d.1) :
    (m.write a v).read b = if b = a then v else m.read b := by
  split
  · next e => rw [e, read_write_same m a v h]
  · next e => exact read_write_ne m a b v e

theorem mem_write {m : Memory} {a : Nat} {v : CodeWord} {c : Cell} (hc : c ∈ m.write a v) :
    (c = (a, v) ∧ v ≠ unlisted) ∨ c ∈ m := by
  induction m with
  | nil => exact .inl (mem_cell.1 hc)
  | cons d m ih =>
    obtain ⟨b, u⟩ := d
    rw [write] at hc
    split at hc
    · rcases List.mem_cons.1 hc with rfl | hc
      · exact .inr (by simp)
      · exact (ih hc).imp id fun h => by simp [h]
    · split at hc <;> rcases List.mem_append.1 hc with hc | hc
      · exact .inl (mem_cell.1 hc)
      · exact .inr (by simp [hc])
      · exact .inl (mem_cell.1 hc)
      · exact .inr hc

/-- A write keeps the addresses strictly rising. -/
theorem pairwise_write {m : Memory} (a : Nat) (v : CodeWord) (h : m.Pairwise fun c d => c.1 < d.1) :
    (m.write a v).Pairwise fun c d => c.1 < d.1 := by
  have hcell : (cell a v).Pairwise fun c d => c.1 < d.1 := by unfold cell; split <;> simp
  induction m with
  | nil => exact hcell
  | cons d m ih =>
    obtain ⟨b, u⟩ := d
    have hpc := List.pairwise_cons.1 h
    rw [write]
    split
    · next hb =>
      refine List.pairwise_cons.2 ⟨fun c hc => ?_, ih hpc.2⟩
      rcases mem_write hc with ⟨rfl, -⟩ | hc
      · exact hb
      · exact hpc.1 c hc
    · split
      · next hb =>
        refine List.pairwise_append.2 ⟨hcell, hpc.2, fun c hc d hd => ?_⟩
        have := hpc.1 d hd
        rw [(mem_cell.1 hc).1]
        simp only at this ⊢
        omega
      · refine List.pairwise_append.2 ⟨hcell, h, fun c hc d hd => ?_⟩
        rw [(mem_cell.1 hc).1]
        rcases List.mem_cons.1 hd with rfl | hd
        · simp only; omega
        · have := hpc.1 d hd
          simp only at this ⊢
          omega

/-- A write keeps the canonical form. -/
theorem wf_write {size : Nat} {m : Memory} {a : Nat} {v : CodeWord} (h : Memory.wf size m) (ha : a < size) :
    Memory.wf size (m.write a v) := by
  refine ⟨pairwise_write a v h.1, fun c hc => ?_⟩
  rcases mem_write hc with ⟨rfl, hv⟩ | hc
  · exact ⟨ha, hv⟩
  · exact h.2 c hc

/-- Placing words keeps the canonical form. -/
theorem wf_place {size : Nat} {m : Memory} {a : Nat} {ws : List CodeWord} (h : Memory.wf size m)
    (ha : a + ws.length ≤ size) : Memory.wf size (m.place a ws) := by
  induction ws generalizing m a with
  | nil => exact h
  | cons w ws ih =>
    rw [List.length_cons] at ha
    exact ih (wf_write h (by omega)) (by omega)

/-- What is read after words are placed. -/
theorem read_place (m : Memory) (a b : Nat) (ws : List CodeWord) (h : m.Pairwise fun c d => c.1 < d.1) :
    (m.place a ws).read b = if hb : a ≤ b ∧ b - a < ws.length then ws[b - a] else m.read b := by
  induction ws generalizing m a with
  | nil => simp [place]
  | cons w ws ih =>
    rw [place, ih _ _ (pairwise_write a w h), read_write _ _ _ _ h]
    rcases Nat.lt_trichotomy b a with hb | hb | hb
    · rw [dif_neg (by omega), dif_neg (by omega), if_neg (by omega)]
    · subst hb
      rw [dif_neg (by omega), dif_pos (by simp)]
      simp
    · by_cases hl : b - a < (w :: ws).length
      · have : b - a = (b - (a + 1)) + 1 := by omega
        rw [dif_pos (by simp at hl; omega), dif_pos ⟨by omega, hl⟩]
        simp [this]
      · rw [dif_neg (by simp at hl; omega), dif_neg (by omega), if_neg (by omega)]

/-- Below the first address of a canonical store nothing is listed. -/
theorem read_lt_head {m : Memory} {a : Nat} (h : ∀ c ∈ m, a < c.1) : m.read a = unlisted :=
  read_of_not_mem m a fun c hc => by have := h c hc; omega

/-- A canonical store is determined by its reads. -/
theorem ext_of_read {size : Nat} {m n : Memory} (hm : Memory.wf size m) (hn : Memory.wf size n)
    (h : ∀ a, m.read a = n.read a) : m = n := by
  induction m generalizing n with
  | nil =>
    cases n with
    | nil => rfl
    | cons d n =>
      obtain ⟨b, u⟩ := d
      have := h b
      rw [read_nil, read_cons, if_pos rfl] at this
      exact absurd this.symm (hn.2 (b, u) (by simp)).2
  | cons c m ih =>
    obtain ⟨a, v⟩ := c
    have hv := (hm.2 (a, v) (by simp)).2
    have hmc := List.pairwise_cons.1 hm.1
    cases n with
    | nil =>
      have := h a
      rw [read_nil, read_cons, if_pos rfl] at this
      exact absurd this hv
    | cons d n =>
      obtain ⟨b, u⟩ := d
      have hu := (hn.2 (b, u) (by simp)).2
      have hnc := List.pairwise_cons.1 hn.1
      have hab : a = b := by
        rcases Nat.lt_trichotomy a b with hlt | heq | hgt
        · have := h a
          rw [read_cons, if_pos rfl, read_lt_head fun c hc => ?_] at this
          · exact absurd this hv
          · rcases List.mem_cons.1 hc with rfl | hc
            · exact hlt
            · have := hnc.1 c hc; simp only at this; omega
        · exact heq
        · have := h b
          rw [read_cons (b := b), if_pos rfl, read_lt_head fun c hc => ?_] at this
          · exact absurd this.symm hu
          · rcases List.mem_cons.1 hc with rfl | hc
            · exact hgt
            · have := hmc.1 c hc; simp only at this; omega
      subst hab
      have hvu : v = u := by
        have := h a
        rwa [read_cons, if_pos rfl, read_cons, if_pos rfl] at this
      subst hvu
      rw [ih (n := n) ⟨hmc.2, fun c hc => hm.2 c (by simp [hc])⟩ ⟨hnc.2, fun c hc => hn.2 c (by simp [hc])⟩]
      intro x
      by_cases hx : a = x
      · subst hx
        rw [read_lt_head fun c hc => hmc.1 c hc, read_lt_head fun c hc => hnc.1 c hc]
      · have := h x
        rwa [read_cons, if_neg hx, read_cons, if_neg hx] at this

/-- Reading through a filter by address. -/
theorem read_filter (m : Memory) (p : Nat → Bool) (a : Nat) :
    Memory.read (m.filter fun c => p c.1) a = if p a then m.read a else unlisted := by
  induction m with
  | nil => simp
  | cons c m ih =>
    obtain ⟨b, u⟩ := c
    by_cases hb : b = a
    · subst hb
      by_cases hp : p b <;> simp [hp, read_cons, ih]
    · by_cases hp : p b <;> simp [hp, read_cons, ih, hb]

/-- A filter keeps the canonical form, in the range the filter leaves. -/
theorem wf_filter {size bound : Nat} {m : Memory} (p : Cell → Bool) (h : Memory.wf size m)
    (hp : ∀ c, p c = true → c.1 < bound) : Memory.wf bound (m.filter p) := by
  refine ⟨h.1.sublist List.filter_sublist, fun c hc => ?_⟩
  rw [List.mem_filter] at hc
  exact ⟨hp c hc.2, (h.2 c hc.1).2⟩

/-- Reading a store whose addresses are all moved up by k. -/
theorem read_shift_up (m : Memory) (k a : Nat) (ha : k ≤ a) :
    Memory.read (m.map fun c => (k + c.1, c.2)) a = m.read (a - k) := by
  induction m with
  | nil => rfl
  | cons c m ih =>
    obtain ⟨b, u⟩ := c
    simp only [List.map_cons, read_cons, ih]
    by_cases hb : b = a - k
    · rw [if_pos (by omega), if_pos hb]
    · rw [if_neg (by omega), if_neg hb]

/-- Reading a store whose addresses, all at least k, are moved down by k. -/
theorem read_shift_down (m : Memory) (k a : Nat) (h : ∀ c ∈ m, k ≤ c.1) :
    Memory.read (m.map fun c => (c.1 - k, c.2)) a = m.read (k + a) := by
  induction m with
  | nil => rfl
  | cons c m ih =>
    obtain ⟨b, u⟩ := c
    have hk : k ≤ b := h (b, u) (by simp)
    simp only [List.map_cons, read_cons, ih fun c hc => h c (by simp [hc])]
    by_cases hb : b = k + a
    · rw [if_pos (by omega), if_pos hb]
    · rw [if_neg (by omega), if_neg hb]

/-- Moving addresses, all in k to k + size - 1, down by k keeps the canonical form. -/
theorem wf_shift_down {bound size k : Nat} {m : Memory} (h : Memory.wf bound m)
    (hk : ∀ c ∈ m, k ≤ c.1 ∧ c.1 < k + size) : Memory.wf size (m.map fun c => (c.1 - k, c.2)) := by
  refine ⟨?_, fun c hc => ?_⟩
  · rw [List.pairwise_map]
    refine h.1.imp_of_mem fun {c d} hc hd hcd => ?_
    have := hk c hc
    have := hk d hd
    simp only
    omega
  · obtain ⟨d, hd, rfl⟩ := List.mem_map.1 hc
    have := hk d hd
    exact ⟨by simp only; omega, (h.2 d hd).2⟩

end Sys2Proof.Machine.Memory
end

