-- ==== Sys2Proof/Laws/State.lean ====
section
/-! SUPPORT. One lemma per field per update of State (true by rfl), and what `reg` and `cap` read after each update. -/

namespace Sys2Proof.Machine.State

variable (s : State)

@[simp] theorem setReg_memSize (r : RegIdx) (v : Value) : (s.setReg r v).memSize = s.memSize := rfl
@[simp] theorem setReg_regs (r : RegIdx) (v : Value) : (s.setReg r v).regs = s.regs.set r v := rfl
@[simp] theorem setReg_pc (r : RegIdx) (v : Value) : (s.setReg r v).pc = s.pc := rfl
@[simp] theorem setReg_sp (r : RegIdx) (v : Value) : (s.setReg r v).sp = s.sp := rfl
@[simp] theorem setReg_stk (r : RegIdx) (v : Value) : (s.setReg r v).stk = s.stk := rfl
@[simp] theorem setReg_code (r : RegIdx) (v : Value) : (s.setReg r v).code = s.code := rfl
@[simp] theorem setReg_run (r : RegIdx) (v : Value) : (s.setReg r v).run = s.run := rfl
@[simp] theorem setReg_env (r : RegIdx) (v : Value) : (s.setReg r v).env = s.env := rfl
@[simp] theorem setReg_cap (r : RegIdx) (v : Value) : (s.setReg r v).cap = s.cap := rfl

@[simp] theorem setPc_memSize (p : CodeWord) : (s.setPc p).memSize = s.memSize := rfl
@[simp] theorem setPc_regs (p : CodeWord) : (s.setPc p).regs = s.regs := rfl
@[simp] theorem setPc_pc (p : CodeWord) : (s.setPc p).pc = p := rfl
@[simp] theorem setPc_sp (p : CodeWord) : (s.setPc p).sp = s.sp := rfl
@[simp] theorem setPc_stk (p : CodeWord) : (s.setPc p).stk = s.stk := rfl
@[simp] theorem setPc_code (p : CodeWord) : (s.setPc p).code = s.code := rfl
@[simp] theorem setPc_run (p : CodeWord) : (s.setPc p).run = s.run := rfl
@[simp] theorem setPc_env (p : CodeWord) : (s.setPc p).env = s.env := rfl
@[simp] theorem setPc_cap (p : CodeWord) : (s.setPc p).cap = s.cap := rfl
@[simp] theorem setPc_reg (p : CodeWord) (q : RegIdx) : (s.setPc p).reg q = s.reg q := rfl

@[simp] theorem advance_memSize (n : Nat) : (s.advance n).memSize = s.memSize := rfl
@[simp] theorem advance_regs (n : Nat) : (s.advance n).regs = s.regs := rfl
@[simp] theorem advance_pc (n : Nat) : (s.advance n).pc = s.pc + BitVec.ofNat 16 n := rfl
@[simp] theorem advance_sp (n : Nat) : (s.advance n).sp = s.sp := rfl
@[simp] theorem advance_stk (n : Nat) : (s.advance n).stk = s.stk := rfl
@[simp] theorem advance_code (n : Nat) : (s.advance n).code = s.code := rfl
@[simp] theorem advance_run (n : Nat) : (s.advance n).run = s.run := rfl
@[simp] theorem advance_env (n : Nat) : (s.advance n).env = s.env := rfl
@[simp] theorem advance_cap (n : Nat) : (s.advance n).cap = s.cap := rfl
@[simp] theorem advance_reg (n : Nat) (q : RegIdx) : (s.advance n).reg q = s.reg q := rfl

@[simp] theorem jump_memSize (v : Value) : (s.jump v).memSize = s.memSize := rfl
@[simp] theorem jump_regs (v : Value) : (s.jump v).regs = s.regs := rfl
@[simp] theorem jump_pc (v : Value) : (s.jump v).pc = v.setWidth 16 := rfl
@[simp] theorem jump_sp (v : Value) : (s.jump v).sp = s.sp := rfl
@[simp] theorem jump_stk (v : Value) : (s.jump v).stk = s.stk := rfl
@[simp] theorem jump_code (v : Value) : (s.jump v).code = s.code := rfl
@[simp] theorem jump_run (v : Value) : (s.jump v).run = s.run := rfl
@[simp] theorem jump_env (v : Value) : (s.jump v).env = s.env := rfl
@[simp] theorem jump_cap (v : Value) : (s.jump v).cap = s.cap := rfl
@[simp] theorem jump_reg (v : Value) (q : RegIdx) : (s.jump v).reg q = s.reg q := rfl

@[simp] theorem stackWrite_memSize (i : Nat) (w : CodeWord) : (s.stackWrite i w).memSize = s.memSize := rfl
@[simp] theorem stackWrite_regs (i : Nat) (w : CodeWord) : (s.stackWrite i w).regs = s.regs := rfl
@[simp] theorem stackWrite_pc (i : Nat) (w : CodeWord) : (s.stackWrite i w).pc = s.pc := rfl
@[simp] theorem stackWrite_sp (i : Nat) (w : CodeWord) : (s.stackWrite i w).sp = s.sp := rfl
@[simp] theorem stackWrite_stk (i : Nat) (w : CodeWord) : (s.stackWrite i w).stk = s.stk.write i w := rfl
@[simp] theorem stackWrite_code (i : Nat) (w : CodeWord) : (s.stackWrite i w).code = s.code := rfl
@[simp] theorem stackWrite_run (i : Nat) (w : CodeWord) : (s.stackWrite i w).run = s.run := rfl
@[simp] theorem stackWrite_env (i : Nat) (w : CodeWord) : (s.stackWrite i w).env = s.env := rfl
@[simp] theorem stackWrite_cap (i : Nat) (w : CodeWord) : (s.stackWrite i w).cap = s.cap := rfl
@[simp] theorem stackWrite_reg (i : Nat) (w : CodeWord) (q : RegIdx) : (s.stackWrite i w).reg q = s.reg q := rfl

@[simp] theorem setSp_memSize (n : Nat) : (s.setSp n).memSize = s.memSize := rfl
@[simp] theorem setSp_regs (n : Nat) : (s.setSp n).regs = s.regs := rfl
@[simp] theorem setSp_pc (n : Nat) : (s.setSp n).pc = s.pc := rfl
@[simp] theorem setSp_sp (n : Nat) : (s.setSp n).sp = n := rfl
@[simp] theorem setSp_stk (n : Nat) : (s.setSp n).stk = s.stk := rfl
@[simp] theorem setSp_code (n : Nat) : (s.setSp n).code = s.code := rfl
@[simp] theorem setSp_run (n : Nat) : (s.setSp n).run = s.run := rfl
@[simp] theorem setSp_env (n : Nat) : (s.setSp n).env = s.env := rfl
@[simp] theorem setSp_cap (n : Nat) : (s.setSp n).cap = s.cap := rfl
@[simp] theorem setSp_reg (n : Nat) (q : RegIdx) : (s.setSp n).reg q = s.reg q := rfl

@[simp] theorem memWrite_memSize (a v : Value) : (s.memWrite a v).memSize = s.memSize := rfl
@[simp] theorem memWrite_regs (a v : Value) : (s.memWrite a v).regs = s.regs := rfl
@[simp] theorem memWrite_pc (a v : Value) : (s.memWrite a v).pc = s.pc := rfl
@[simp] theorem memWrite_sp (a v : Value) : (s.memWrite a v).sp = s.sp := rfl
@[simp] theorem memWrite_stk (a v : Value) : (s.memWrite a v).stk = s.stk := rfl
@[simp] theorem memWrite_code (a v : Value) : (s.memWrite a v).code = s.code.write a.toNat (v.setWidth 16) := rfl
@[simp] theorem memWrite_run (a v : Value) : (s.memWrite a v).run = s.run := rfl
@[simp] theorem memWrite_env (a v : Value) : (s.memWrite a v).env = s.env := rfl
@[simp] theorem memWrite_cap (a v : Value) : (s.memWrite a v).cap = s.cap := rfl
@[simp] theorem memWrite_reg (a v : Value) (q : RegIdx) : (s.memWrite a v).reg q = s.reg q := rfl

@[simp] theorem setRun_memSize (r : RunState) : (s.setRun r).memSize = s.memSize := rfl
@[simp] theorem setRun_regs (r : RunState) : (s.setRun r).regs = s.regs := rfl
@[simp] theorem setRun_pc (r : RunState) : (s.setRun r).pc = s.pc := rfl
@[simp] theorem setRun_sp (r : RunState) : (s.setRun r).sp = s.sp := rfl
@[simp] theorem setRun_stk (r : RunState) : (s.setRun r).stk = s.stk := rfl
@[simp] theorem setRun_code (r : RunState) : (s.setRun r).code = s.code := rfl
@[simp] theorem setRun_run (r : RunState) : (s.setRun r).run = r := rfl
@[simp] theorem setRun_env (r : RunState) : (s.setRun r).env = s.env := rfl
@[simp] theorem setRun_cap (r : RunState) : (s.setRun r).cap = s.cap := rfl
@[simp] theorem setRun_reg (r : RunState) (q : RegIdx) : (s.setRun r).reg q = s.reg q := rfl

@[simp] theorem takeFault_memSize (c : Cause) : (s.takeFault c).memSize = s.memSize := rfl
@[simp] theorem takeFault_regs (c : Cause) : (s.takeFault c).regs = s.regs := rfl
@[simp] theorem takeFault_pc (c : Cause) : (s.takeFault c).pc = s.pc := rfl
@[simp] theorem takeFault_sp (c : Cause) : (s.takeFault c).sp = s.sp := rfl
@[simp] theorem takeFault_stk (c : Cause) : (s.takeFault c).stk = s.stk := rfl
@[simp] theorem takeFault_code (c : Cause) : (s.takeFault c).code = s.code := rfl
@[simp] theorem takeFault_run (c : Cause) : (s.takeFault c).run = .faulted c := rfl
@[simp] theorem takeFault_env (c : Cause) : (s.takeFault c).env = s.env := rfl
@[simp] theorem takeFault_cap (c : Cause) : (s.takeFault c).cap = s.cap := rfl
@[simp] theorem takeFault_reg (c : Cause) (q : RegIdx) : (s.takeFault c).reg q = s.reg q := rfl

@[simp] theorem setEnv_memSize (e : Env) : (s.setEnv e).memSize = s.memSize := rfl
@[simp] theorem setEnv_regs (e : Env) : (s.setEnv e).regs = s.regs := rfl
@[simp] theorem setEnv_pc (e : Env) : (s.setEnv e).pc = s.pc := rfl
@[simp] theorem setEnv_sp (e : Env) : (s.setEnv e).sp = s.sp := rfl
@[simp] theorem setEnv_stk (e : Env) : (s.setEnv e).stk = s.stk := rfl
@[simp] theorem setEnv_code (e : Env) : (s.setEnv e).code = s.code := rfl
@[simp] theorem setEnv_run (e : Env) : (s.setEnv e).run = s.run := rfl
@[simp] theorem setEnv_env (e : Env) : (s.setEnv e).env = e := rfl
@[simp] theorem setEnv_cap (e : Env) : (s.setEnv e).cap = s.cap := rfl
@[simp] theorem setEnv_reg (e : Env) (q : RegIdx) : (s.setEnv e).reg q = s.reg q := rfl

@[simp] theorem record_memSize (e : Event) : (s.record e).memSize = s.memSize := rfl
@[simp] theorem record_regs (e : Event) : (s.record e).regs = s.regs := rfl
@[simp] theorem record_pc (e : Event) : (s.record e).pc = s.pc := rfl
@[simp] theorem record_sp (e : Event) : (s.record e).sp = s.sp := rfl
@[simp] theorem record_stk (e : Event) : (s.record e).stk = s.stk := rfl
@[simp] theorem record_code (e : Event) : (s.record e).code = s.code := rfl
@[simp] theorem record_run (e : Event) : (s.record e).run = s.run := rfl
@[simp] theorem record_env (e : Event) : (s.record e).env = { s.env with events := s.env.events ++ [e] } := rfl
@[simp] theorem record_cap (e : Event) : (s.record e).cap = s.cap := rfl
@[simp] theorem record_reg (e : Event) (q : RegIdx) : (s.record e).reg q = s.reg q := rfl

@[simp] theorem emit_memSize (b : Byte) : (s.emit b).memSize = s.memSize := rfl
@[simp] theorem emit_regs (b : Byte) : (s.emit b).regs = s.regs := rfl
@[simp] theorem emit_pc (b : Byte) : (s.emit b).pc = s.pc := rfl
@[simp] theorem emit_sp (b : Byte) : (s.emit b).sp = s.sp := rfl
@[simp] theorem emit_stk (b : Byte) : (s.emit b).stk = s.stk := rfl
@[simp] theorem emit_code (b : Byte) : (s.emit b).code = s.code := rfl
@[simp] theorem emit_run (b : Byte) : (s.emit b).run = s.run := rfl
@[simp] theorem emit_env (b : Byte) : (s.emit b).env = { s.env with events := s.env.events ++ [.emit b] } := rfl
@[simp] theorem emit_cap (b : Byte) : (s.emit b).cap = s.cap := rfl
@[simp] theorem emit_reg (b : Byte) (q : RegIdx) : (s.emit b).reg q = s.reg q := rfl

@[simp] theorem setReg_reg_same (r : RegIdx) (v : Value) : (s.setReg r v).reg r = v := by simp [reg, setReg]

theorem setReg_reg_ne (r q : RegIdx) (v : Value) (h : q ≠ r) : (s.setReg r v).reg q = s.reg q := by
  have : r.val ≠ q.val := fun e => h (Fin.ext e.symm)
  simp [reg, setReg, Vector.getElem_set_ne, this]

theorem setReg_reg (r q : RegIdx) (v : Value) : (s.setReg r v).reg q = if q = r then v else s.reg q := by
  split
  · next h => subst h; simp
  · next h => exact s.setReg_reg_ne r q v h

end Sys2Proof.Machine.State
end

