-- ==== Sys2Proof/Laws/Ops.lean ====
section
/-! SUPPORT. What each shared operation can do, once: the commit, WriteReg, the stack accesses, the operand readers, the
host ports, and the shared shapes of the meanings. -/

namespace Sys2Proof.Machine

namespace State

@[simp] theorem commit_ok (s t : State) : s.commit (.ok t) = .next t := rfl

@[simp] theorem commit_error (s : State) (c : Cause) : s.commit (.error c) = .next (s.takeFault c) := rfl

/-- A commit always gives a next state: the working copy, or the fault entry on the state before (R10, R114). -/
theorem commit_next {s t : State} {b : Except Cause State} (h : s.commit b = .next t) :
    b = .ok t ∨ ∃ c, b = .error c ∧ t = s.takeFault c := by
  cases b with
  | ok u => cases h; exact .inl rfl
  | error c => cases h; exact .inr ⟨c, rfl, rfl⟩

/-- A value always passes WriteReg (R69). -/
@[simp] theorem writeReg_value (s : State) (r : RegIdx) (v : Value) :
    s.writeReg r (v.setWidth 16) = .ok (s.setReg r v) := by
  have h : ¬ 32767 < (v.setWidth 16).toNat := by rw [BitVec.toNat_setWidth]; omega
  have e : (v.setWidth 16).setWidth 15 = v := by
    apply BitVec.eq_of_toNat_eq
    simp only [BitVec.toNat_setWidth]
    omega
  rw [writeReg, if_neg h, e]

/-- A byte always passes WriteReg (R69, R107). -/
theorem writeReg_byte (s : State) (r : RegIdx) (b : Byte) :
    s.writeReg r (b.setWidth 16) = .ok (s.setReg r (b.setWidth 15)) := by
  have h : ¬ 32767 < (b.setWidth 16).toNat := by rw [BitVec.toNat_setWidth]; omega
  have e : (b.setWidth 16).setWidth 15 = b.setWidth 15 := by
    apply BitVec.eq_of_toNat_eq
    simp only [BitVec.toNat_setWidth]
    omega
  rw [writeReg, if_neg h, e]

theorem writeReg_large (s : State) (r : RegIdx) (w : CodeWord) (h : 32767 < w.toNat) :
    s.writeReg r w = .error .valueOutOfRange := if_pos h

/-- WriteReg stores the word or faults ValueOutOfRange (R69). -/
theorem writeReg_cases (s : State) (r : RegIdx) (w : CodeWord) :
    (w.toNat ≤ 32767 ∧ s.writeReg r w = .ok (s.setReg r (w.setWidth 15))) ∨
      (32767 < w.toNat ∧ s.writeReg r w = .error .valueOutOfRange) := by
  rcases Nat.lt_or_ge 32767 w.toNat with h | h
  · exact .inr ⟨h, if_pos h⟩
  · exact .inl ⟨h, if_neg (by omega)⟩

/-- Push stores into slot sp, or faults on a full stack (R71). -/
theorem push_cases (s : State) (v : CodeWord) :
    (s.sp ≠ s.cap ∧ s.push v = .ok ((s.stackWrite s.sp v).setSp (s.sp + 1))) ∨
      (s.sp = s.cap ∧ s.push v = .error .stackOverflow) := by
  by_cases h : s.sp = s.cap
  · exact .inr ⟨h, if_pos h⟩
  · exact .inl ⟨h, if_neg h⟩

/-- Pop answers the top slot, or faults on an empty stack (R72). -/
theorem pop_cases (s : State) :
    (s.sp ≠ 0 ∧ s.pop = .ok (s.stk.read (s.sp - 1), s.setSp (s.sp - 1))) ∨
      (s.sp = 0 ∧ s.pop = .error .stackUnderflow) := by
  by_cases h : s.sp = 0
  · exact .inr ⟨h, if_pos h⟩
  · exact .inl ⟨h, if_neg h⟩

/-- An input request is answered by the first answer ready, which is consumed (R103). -/
theorem inputByte_cases (s : State) :
    (s.env.input = [] ∧ s.inputByte = none) ∨
      ∃ a rest, s.env.input = a :: rest ∧
        s.inputByte = some (a, s.setEnv { s.env with input := rest, events := s.env.events ++ [.input a] }) := by
  unfold inputByte
  cases s.env.input with
  | nil => exact .inl ⟨rfl, rfl⟩
  | cons a rest => exact .inr ⟨a, rest, rfl, rfl⟩

end State

@[simp] theorem val_lit (s : State) (v : Value) : val s (.lit v) = .ok v := rfl
@[simp] theorem val_reg (s : State) (r : RegIdx) : val s (.reg r) = .ok (s.reg r) := rfl
@[simp] theorem val_invalid (s : State) (w : CodeWord) : val s (.invalid w) = .error .invalidOperand := rfl
@[simp] theorem dst_lit (v : Value) : dst (.lit v) = .error .invalidDestination := rfl
@[simp] theorem dst_reg (r : RegIdx) : dst (.reg r) = .ok r := rfl
@[simp] theorem dst_invalid (w : CodeWord) : dst (.invalid w) = .error .invalidDestination := rfl

/-- The resolver answers what the operand denotes (R65). -/
theorem val_of_denotes {s : State} {o : Operand} {x : Value} (h : Denotes s o x) : val s o = .ok x := by
  cases h <;> rfl

theorem denotes_of_val {s : State} {o : Operand} {x : Value} (h : val s o = .ok x) : Denotes s o x := by
  cases o with
  | lit v => cases h; exact .lit _
  | reg r => cases h; exact .reg _
  | invalid w => cases h

/-- The resolver answers a value or faults InvalidOperand. -/
theorem val_cases (s : State) (o : Operand) :
    (∃ x, val s o = .ok x ∧ o.isValue = true) ∨ (val s o = .error .invalidOperand ∧ o.isValue = false) := by
  cases o with
  | lit v => exact .inl ⟨v, rfl, rfl⟩
  | reg r => exact .inl ⟨s.reg r, rfl, rfl⟩
  | invalid w => exact .inr ⟨rfl, rfl⟩

/-- The destination decoder answers the register or faults InvalidDestination. -/
theorem dst_cases (o : Operand) :
    (∃ r, o = .reg r ∧ dst o = .ok r) ∨ (dst o = .error .invalidDestination ∧ o.isDestination = false) := by
  cases o with
  | lit v => exact .inr ⟨rfl, rfl⟩
  | reg r => exact .inl ⟨r, rfl, rfl⟩
  | invalid w => exact .inr ⟨rfl, rfl⟩

@[simp] theorem bind_ok {α β : Type} (a : α) (f : α → Except Cause β) : (Except.ok a >>= f) = f a := rfl
@[simp] theorem bind_error {α β : Type} (c : Cause) (f : α → Except Cause β) :
    ((Except.error c : Except Cause α) >>= f) = .error c := rfl
@[simp] theorem pure_ok {α : Type} (a : α) : (pure a : Except Cause α) = .ok a := rfl

/-- A computing instruction on legal operands writes the result and advances four words. -/
theorem compute2_ok {f : Value → Value → Except Cause Value} {s : State} {r : RegIdx} {a b : Operand} {x y z : Value}
    (ha : Denotes s a x) (hb : Denotes s b y) (hz : f x y = .ok z) :
    compute2 f (.reg r) a b s = .next ((s.setReg r z).advance 4) := by
  simp [compute2, val_of_denotes ha, val_of_denotes hb, hz]

theorem compute2_error {f : Value → Value → Except Cause Value} {s : State} {r : RegIdx} {a b : Operand} {x y : Value}
    {c : Cause} (ha : Denotes s a x) (hb : Denotes s b y) (hz : f x y = .error c) :
    compute2 f (.reg r) a b s = .next (s.takeFault c) := by
  simp [compute2, val_of_denotes ha, val_of_denotes hb, hz]

theorem compute1_ok {f : Value → Value} {s : State} {r : RegIdx} {a : Operand} {x : Value} (ha : Denotes s a x) :
    compute1 f (.reg r) a s = .next ((s.setReg r (f x)).advance 3) := by
  simp [compute1, val_of_denotes ha]

/-- Everything a two-operand computing instruction can do: write one register and advance, or take a fault that is an
operand fault or the computation's own. -/
theorem compute2_cases (f : Value → Value → Except Cause Value) (d a b : Operand) (s : State) :
    (∃ r x y z, d = .reg r ∧ Denotes s a x ∧ Denotes s b y ∧ f x y = .ok z ∧
        compute2 f d a b s = .next ((s.setReg r z).advance 4)) ∨
      (∃ c, compute2 f d a b s = .next (s.takeFault c) ∧
        ((d.isDestination && a.isValue && b.isValue) = true → ∃ x y, f x y = .error c)) := by
  rcases dst_cases d with ⟨r, rfl, hd⟩ | ⟨hd, hd'⟩
  · rcases val_cases s a with ⟨x, hx, -⟩ | ⟨hx, hx'⟩
    · rcases val_cases s b with ⟨y, hy, -⟩ | ⟨hy, hy'⟩
      · cases hz : f x y with
        | ok z =>
          exact .inl ⟨r, x, y, z, rfl, denotes_of_val hx, denotes_of_val hy, hz,
            compute2_ok (denotes_of_val hx) (denotes_of_val hy) hz⟩
        | error c =>
          exact .inr ⟨c, compute2_error (denotes_of_val hx) (denotes_of_val hy) hz, fun _ => ⟨x, y, hz⟩⟩
      · exact .inr ⟨.invalidOperand, by simp [compute2, hx, hy], by simp [hy']⟩
    · exact .inr ⟨.invalidOperand, by simp [compute2, hx], by simp [hx']⟩
  · exact .inr ⟨.invalidDestination, by simp [compute2, hd], by simp [hd']⟩

/-- Everything a one-operand computing instruction can do. -/
theorem compute1_cases (f : Value → Value) (d a : Operand) (s : State) :
    (∃ r x, d = .reg r ∧ Denotes s a x ∧ compute1 f d a s = .next ((s.setReg r (f x)).advance 3)) ∨
      (∃ c, compute1 f d a s = .next (s.takeFault c) ∧ (d.isDestination && a.isValue) = false) := by
  rcases dst_cases d with ⟨r, rfl, hd⟩ | ⟨hd, hd'⟩
  · rcases val_cases s a with ⟨x, hx, -⟩ | ⟨hx, hx'⟩
    · exact .inl ⟨r, x, rfl, denotes_of_val hx, compute1_ok (denotes_of_val hx)⟩
    · exact .inr ⟨.invalidOperand, by simp [compute1, hx], by simp [hx']⟩
  · exact .inr ⟨.invalidDestination, by simp [compute1, hd], by simp [hd']⟩

/-- Everything a snapshot request can do (R104, R107). -/
theorem snapshot_cases (s t : State) :
    (s.env.snapshotAnswers = [] ∧ s.snapshot t = .fault .awaitingSnapshot) ∨
      (∃ rest, s.env.snapshotAnswers = .ok :: rest ∧ s.snapshot t =
        .next (t.setEnv { s.env with snapshotAnswers := rest, events := s.env.events ++ [.snapshot t.unified .ok] })) ∨
      (∃ rest, s.env.snapshotAnswers = .error :: rest ∧ s.snapshot t =
        .next ((s.setEnv { s.env with
          snapshotAnswers := rest, events := s.env.events ++ [.snapshot t.unified .error] }).takeFault .snapshotError)) := by
  unfold State.snapshot
  cases s.env.snapshotAnswers with
  | nil => exact .inl ⟨rfl, rfl⟩
  | cons a rest =>
    cases a with
    | ok => exact .inr (.inl ⟨rest, rfl, rfl⟩)
    | error => exact .inr (.inr ⟨rest, rfl, rfl⟩)

end Sys2Proof.Machine
end

