-- ==== Sys2Proof/Laws/Exec.lean ====
section
/-! SUPPORT. One inversion lemma per instruction that is no plain computation: everything its meaning can do. The computing
instructions have `compute2_cases` and `compute1_cases`. -/

namespace Sys2Proof.Machine

@[simp] theorem exec_halt (s : State) : exec .halt s = execHalt s := rfl
@[simp] theorem exec_set (d v : Operand) (s : State) : exec (.set d v) s = execSet d v s := rfl
@[simp] theorem exec_push (v : Operand) (s : State) : exec (.push v) s = execPush v s := rfl
@[simp] theorem exec_pop (d : Operand) (s : State) : exec (.pop d) s = execPop d s := rfl
@[simp] theorem exec_eq (d a b : Operand) (s : State) : exec (.eq d a b) s = execEq d a b s := rfl
@[simp] theorem exec_gt (d a b : Operand) (s : State) : exec (.gt d a b) s = execGt d a b s := rfl
@[simp] theorem exec_jmp (a : Operand) (s : State) : exec (.jmp a) s = execJmp a s := rfl
@[simp] theorem exec_jt (c a : Operand) (s : State) : exec (.jt c a) s = execJt c a s := rfl
@[simp] theorem exec_jf (c a : Operand) (s : State) : exec (.jf c a) s = execJf c a s := rfl
@[simp] theorem exec_add (d a b : Operand) (s : State) : exec (.add d a b) s = execAdd d a b s := rfl
@[simp] theorem exec_mult (d a b : Operand) (s : State) : exec (.mult d a b) s = execMult d a b s := rfl
@[simp] theorem exec_mod (d a b : Operand) (s : State) : exec (.mod d a b) s = execMod d a b s := rfl
@[simp] theorem exec_and (d a b : Operand) (s : State) : exec (.and d a b) s = execAnd d a b s := rfl
@[simp] theorem exec_or (d a b : Operand) (s : State) : exec (.or d a b) s = execOr d a b s := rfl
@[simp] theorem exec_not (d a : Operand) (s : State) : exec (.not d a) s = execNot d a s := rfl
@[simp] theorem exec_rmem (d a : Operand) (s : State) : exec (.rmem d a) s = execRmem d a s := rfl
@[simp] theorem exec_wmem (a v : Operand) (s : State) : exec (.wmem a v) s = execWmem a v s := rfl
@[simp] theorem exec_call (a : Operand) (s : State) : exec (.call a) s = execCall a s := rfl
@[simp] theorem exec_ret (s : State) : exec .ret s = execRet s := rfl
@[simp] theorem exec_out (v : Operand) (s : State) : exec (.out v) s = execOut v s := rfl
@[simp] theorem exec_inp (d : Operand) (s : State) : exec (.inp d) s = execInp d s := rfl
@[simp] theorem exec_noop (s : State) : exec .noop s = execNoop s := rfl

theorem execSet_cases (d v : Operand) (s : State) :
    (∃ r x, d = .reg r ∧ Denotes s v x ∧ execSet d v s = .next ((s.setReg r x).advance 3)) ∨
      (∃ c, execSet d v s = .next (s.takeFault c) ∧ (d.isDestination && v.isValue) = false) := by
  rcases dst_cases d with ⟨r, rfl, hd⟩ | ⟨hd, hd'⟩
  · rcases val_cases s v with ⟨x, hx, -⟩ | ⟨hx, hx'⟩
    · exact .inl ⟨r, x, rfl, denotes_of_val hx, by simp [execSet, hx]⟩
    · exact .inr ⟨.invalidOperand, by simp [execSet, hx], by simp [hx']⟩
  · exact .inr ⟨.invalidDestination, by simp [execSet, hd], by simp [hd']⟩

theorem execPush_cases (v : Operand) (s : State) :
    (∃ x, Denotes s v x ∧ s.sp ≠ s.cap ∧
        execPush v s = .next (((s.stackWrite s.sp (x.setWidth 16)).setSp (s.sp + 1)).advance 2)) ∨
      (∃ x, Denotes s v x ∧ s.sp = s.cap ∧ execPush v s = .next (s.takeFault .stackOverflow)) ∨
      (∃ c, execPush v s = .next (s.takeFault c) ∧ v.isValue = false) := by
  rcases val_cases s v with ⟨x, hx, -⟩ | ⟨hx, hx'⟩
  · rcases s.push_cases (x.setWidth 16) with ⟨h, hp⟩ | ⟨h, hp⟩
    · exact .inl ⟨x, denotes_of_val hx, h, by simp [execPush, hx, hp]⟩
    · exact .inr (.inl ⟨x, denotes_of_val hx, h, by simp [execPush, hx, hp]⟩)
  · exact .inr (.inr ⟨.invalidOperand, by simp [execPush, hx], hx'⟩)

theorem execPop_cases (d : Operand) (s : State) :
    (∃ r, d = .reg r ∧ s.sp ≠ 0 ∧ (s.stk.read (s.sp - 1)).toNat ≤ 32767 ∧ execPop d s =
        .next (((s.setSp (s.sp - 1)).setReg r ((s.stk.read (s.sp - 1)).setWidth 15)).advance 2)) ∨
      (∃ r, d = .reg r ∧ s.sp = 0 ∧ execPop d s = .next (s.takeFault .stackUnderflow)) ∨
      (∃ r, d = .reg r ∧ s.sp ≠ 0 ∧ 32767 < (s.stk.read (s.sp - 1)).toNat ∧
        execPop d s = .next (s.takeFault .valueOutOfRange)) ∨
      (∃ c, execPop d s = .next (s.takeFault c) ∧ d.isDestination = false) := by
  rcases dst_cases d with ⟨r, rfl, hd⟩ | ⟨hd, hd'⟩
  · rcases s.pop_cases with ⟨h, hp⟩ | ⟨h, hp⟩
    · rcases (s.setSp (s.sp - 1)).writeReg_cases r (s.stk.read (s.sp - 1)) with ⟨hw, he⟩ | ⟨hw, he⟩
      · exact .inl ⟨r, rfl, h, hw, by simp [execPop, hp, he]⟩
      · exact .inr (.inr (.inl ⟨r, rfl, h, hw, by simp [execPop, hp, he]⟩))
    · exact .inr (.inl ⟨r, rfl, h, by simp [execPop, hp]⟩)
  · exact .inr (.inr (.inr ⟨.invalidDestination, by simp [execPop, hd], hd'⟩))

theorem execJmp_cases (a : Operand) (s : State) :
    (∃ t, Denotes s a t ∧ execJmp a s = .next (s.jump t)) ∨
      (∃ c, execJmp a s = .next (s.takeFault c) ∧ a.isValue = false) := by
  rcases val_cases s a with ⟨x, hx, -⟩ | ⟨hx, hx'⟩
  · exact .inl ⟨x, denotes_of_val hx, by simp [execJmp, hx]⟩
  · exact .inr ⟨.invalidOperand, by simp [execJmp, hx], hx'⟩

theorem isTrue_iff (c : Value) : isTrue c = true ↔ c ≠ 0 := by simp [isTrue]

theorem execJt_cases (c a : Operand) (s : State) :
    (∃ x t, Denotes s c x ∧ Denotes s a t ∧ execJt c a s = .next (if x ≠ 0 then s.jump t else s.advance 3)) ∨
      (∃ e, execJt c a s = .next (s.takeFault e) ∧ (c.isValue && a.isValue) = false) := by
  rcases val_cases s c with ⟨x, hx, -⟩ | ⟨hx, hx'⟩
  · rcases val_cases s a with ⟨t, ht, -⟩ | ⟨ht, ht'⟩
    · exact .inl ⟨x, t, denotes_of_val hx, denotes_of_val ht, by simp [execJt, hx, ht, isTrue_iff]⟩
    · exact .inr ⟨.invalidOperand, by simp [execJt, hx, ht], by simp [ht']⟩
  · exact .inr ⟨.invalidOperand, by simp [execJt, hx], by simp [hx']⟩

theorem execJf_cases (c a : Operand) (s : State) :
    (∃ x t, Denotes s c x ∧ Denotes s a t ∧ execJf c a s = .next (if x ≠ 0 then s.advance 3 else s.jump t)) ∨
      (∃ e, execJf c a s = .next (s.takeFault e) ∧ (c.isValue && a.isValue) = false) := by
  rcases val_cases s c with ⟨x, hx, -⟩ | ⟨hx, hx'⟩
  · rcases val_cases s a with ⟨t, ht, -⟩ | ⟨ht, ht'⟩
    · exact .inl ⟨x, t, denotes_of_val hx, denotes_of_val ht, by simp [execJf, hx, ht, isTrue_iff]⟩
    · exact .inr ⟨.invalidOperand, by simp [execJf, hx, ht], by simp [ht']⟩
  · exact .inr ⟨.invalidOperand, by simp [execJf, hx], by simp [hx']⟩

theorem execCall_cases (a : Operand) (s : State) :
    (∃ t, Denotes s a t ∧ s.sp ≠ s.cap ∧
        execCall a s = .next (((s.stackWrite s.sp (s.pc + 2)).setSp (s.sp + 1)).jump t)) ∨
      (∃ t, Denotes s a t ∧ s.sp = s.cap ∧ execCall a s = .next (s.takeFault .stackOverflow)) ∨
      (∃ c, execCall a s = .next (s.takeFault c) ∧ a.isValue = false) := by
  rcases val_cases s a with ⟨x, hx, -⟩ | ⟨hx, hx'⟩
  · rcases s.push_cases (s.pc + 2) with ⟨h, hp⟩ | ⟨h, hp⟩
    · exact .inl ⟨x, denotes_of_val hx, h, by simp only [execCall, hx, hp, bind_ok, pure_ok, State.commit_ok]⟩
    · exact .inr (.inl ⟨x, denotes_of_val hx, h, by simp only [execCall, hx, hp, bind_ok, bind_error, State.commit_error]⟩)
  · exact .inr (.inr ⟨.invalidOperand, by simp [execCall, hx], hx'⟩)

theorem execRet_cases (s : State) :
    (s.sp ≠ 0 ∧ execRet s = .next ((s.setSp (s.sp - 1)).setPc (s.stk.read (s.sp - 1)))) ∨
      (s.sp = 0 ∧ execRet s = .next (s.takeFault .stackUnderflow)) := by
  rcases s.pop_cases with ⟨h, hp⟩ | ⟨h, hp⟩
  · exact .inl ⟨h, by simp [execRet, hp]⟩
  · exact .inr ⟨h, by simp [execRet, hp]⟩

theorem execRmem_cases (d a : Operand) (s : State) :
    (∃ r x, d = .reg r ∧ Denotes s a x ∧ (s.code.read x.toNat).toNat ≤ 32767 ∧
        execRmem d a s = .next ((s.setReg r ((s.code.read x.toNat).setWidth 15)).advance 3)) ∨
      (∃ r x, d = .reg r ∧ Denotes s a x ∧ 32767 < (s.code.read x.toNat).toNat ∧
        execRmem d a s = .next (s.takeFault .valueOutOfRange)) ∨
      (∃ c, execRmem d a s = .next (s.takeFault c) ∧ (d.isDestination && a.isValue) = false) := by
  rcases dst_cases d with ⟨r, rfl, hd⟩ | ⟨hd, hd'⟩
  · rcases val_cases s a with ⟨x, hx, -⟩ | ⟨hx, hx'⟩
    · rcases s.writeReg_cases r (s.memRead x) with ⟨hw, he⟩ | ⟨hw, he⟩
      · exact .inl ⟨r, x, rfl, denotes_of_val hx, hw, by simp [execRmem, hx, he]; rfl⟩
      · exact .inr (.inl ⟨r, x, rfl, denotes_of_val hx, hw, by simp [execRmem, hx, he]⟩)
    · exact .inr (.inr ⟨.invalidOperand, by simp [execRmem, hx], by simp [hx']⟩)
  · exact .inr (.inr ⟨.invalidDestination, by simp [execRmem, hd], by simp [hd']⟩)

theorem execWmem_cases (a v : Operand) (s : State) :
    (∃ x y, Denotes s a x ∧ Denotes s v y ∧ execWmem a v s = .next ((s.memWrite x y).advance 3)) ∨
      (∃ c, execWmem a v s = .next (s.takeFault c) ∧ (a.isValue && v.isValue) = false) := by
  rcases val_cases s a with ⟨x, hx, -⟩ | ⟨hx, hx'⟩
  · rcases val_cases s v with ⟨y, hy, -⟩ | ⟨hy, hy'⟩
    · exact .inl ⟨x, y, denotes_of_val hx, denotes_of_val hy, by simp [execWmem, hx, hy]⟩
    · exact .inr ⟨.invalidOperand, by simp [execWmem, hx, hy], by simp [hy']⟩
  · exact .inr ⟨.invalidOperand, by simp [execWmem, hx], by simp [hx']⟩

theorem execOut_cases (v : Operand) (s : State) :
    (∃ x, Denotes s v x ∧ execOut v s = .next ((s.emit (x.setWidth 8)).advance 2)) ∨
      (∃ c, execOut v s = .next (s.takeFault c) ∧ v.isValue = false) := by
  rcases val_cases s v with ⟨x, hx, -⟩ | ⟨hx, hx'⟩
  · exact .inl ⟨x, denotes_of_val hx, by simp [execOut, hx]⟩
  · exact .inr ⟨.invalidOperand, by simp [execOut, hx], hx'⟩

/-- What IN does with a byte once it is consumed. -/
theorem deliverByte_eq (r : RegIdx) (b : Byte) (s : State) :
    deliverByte r b s =
      if b = Config.saveTrigger then s.snapshot ((s.setReg r (b.setWidth 15)).advance 2)
      else .next ((s.setReg r (b.setWidth 15)).advance 2) := by
  rw [deliverByte, State.writeReg_byte]

/-- A byte that is not the save trigger is stored and nothing else happens. -/
theorem deliverByte_other (r : RegIdx) (b : Byte) (s : State) (h : b.toNat ≠ 16) :
    deliverByte r b s = .next ((s.setReg r (b.setWidth 15)).advance 2) := by
  rw [deliverByte_eq, if_neg]
  intro e
  exact h (by rw [e]; rfl)

/-- The save trigger asks for the snapshot of the state about to be committed (R107). -/
theorem deliverByte_trigger (r : RegIdx) (s : State) :
    deliverByte r 16 s = s.snapshot ((s.setReg r 16).advance 2) := by
  rw [deliverByte_eq]
  exact if_pos rfl

/-- The state of the ports after IN has consumed the answer a. -/
def consumed (s : State) (a : InputAnswer) (rest : List InputAnswer) : Env :=
  { s.env with input := rest, events := s.env.events ++ [.input a] }

/-- Everything IN can do before a byte is delivered. -/
theorem execInp_cases (d : Operand) (s : State) :
    (∃ r, d = .reg r ∧ s.env.input = [] ∧ execInp d s = .fault .awaitingInput) ∨
      (∃ r rest, d = .reg r ∧ s.env.input = .error :: rest ∧
        execInp d s = .next ((s.setEnv (consumed s .error rest)).takeFault .inputError)) ∨
      (∃ r rest, d = .reg r ∧ s.env.input = .endOfInput :: rest ∧
        execInp d s = .next ((s.setEnv (consumed s .endOfInput rest)).takeFault .inputEnd)) ∨
      (∃ r b rest, d = .reg r ∧ s.env.input = .byte b :: rest ∧
        execInp d s = deliverByte r b (s.setEnv (consumed s (.byte b) rest))) ∨
      (execInp d s = .next (s.takeFault .invalidDestination) ∧ d.isDestination = false) := by
  rcases dst_cases d with ⟨r, rfl, hd⟩ | ⟨hd, hd'⟩
  · rcases s.inputByte_cases with ⟨hi, hb⟩ | ⟨a, rest, hi, hb⟩
    · exact .inl ⟨r, rfl, hi, by simp [execInp, hb]⟩
    · cases a with
      | byte b => exact .inr (.inr (.inr (.inl ⟨r, b, rest, rfl, hi, by simp [execInp, hb, consumed]⟩)))
      | endOfInput => exact .inr (.inr (.inl ⟨r, rest, rfl, hi, by simp [execInp, hb, consumed]⟩))
      | error => exact .inr (.inl ⟨r, rest, rfl, hi, by simp [execInp, hb, consumed]⟩)
  · exact .inr (.inr (.inr (.inr ⟨by simp [execInp, hd], hd'⟩)))

end Sys2Proof.Machine
end

