-- ==== Sys2Proof/Laws/PerInstr.lean ====
section
/-! SUPPORT. The per-instruction family Shape: an instruction has as many operands as its row of R47 has kinds, and is
built again from its row and its operands. -/

namespace Sys2Proof.Laws

/-- What Shape says of one instruction. -/
def Shape.Statement (i : Instr) : Prop :=
  i.operands.length = i.mnemonic.kinds.length ∧ Instr.build i.mnemonic i.operands = some i

theorem Shape.halt : Shape.Statement .halt := ⟨rfl, rfl⟩
theorem Shape.set (d v : Operand) : Shape.Statement (.set d v) := ⟨rfl, rfl⟩
theorem Shape.push (v : Operand) : Shape.Statement (.push v) := ⟨rfl, rfl⟩
theorem Shape.pop (d : Operand) : Shape.Statement (.pop d) := ⟨rfl, rfl⟩
theorem Shape.eq (d a b : Operand) : Shape.Statement (.eq d a b) := ⟨rfl, rfl⟩
theorem Shape.gt (d a b : Operand) : Shape.Statement (.gt d a b) := ⟨rfl, rfl⟩
theorem Shape.jmp (a : Operand) : Shape.Statement (.jmp a) := ⟨rfl, rfl⟩
theorem Shape.jt (c a : Operand) : Shape.Statement (.jt c a) := ⟨rfl, rfl⟩
theorem Shape.jf (c a : Operand) : Shape.Statement (.jf c a) := ⟨rfl, rfl⟩
theorem Shape.add (d a b : Operand) : Shape.Statement (.add d a b) := ⟨rfl, rfl⟩
theorem Shape.mult (d a b : Operand) : Shape.Statement (.mult d a b) := ⟨rfl, rfl⟩
theorem Shape.mod (d a b : Operand) : Shape.Statement (.mod d a b) := ⟨rfl, rfl⟩
theorem Shape.and (d a b : Operand) : Shape.Statement (.and d a b) := ⟨rfl, rfl⟩
theorem Shape.or (d a b : Operand) : Shape.Statement (.or d a b) := ⟨rfl, rfl⟩
theorem Shape.not (d a : Operand) : Shape.Statement (.not d a) := ⟨rfl, rfl⟩
theorem Shape.rmem (d a : Operand) : Shape.Statement (.rmem d a) := ⟨rfl, rfl⟩
theorem Shape.wmem (a v : Operand) : Shape.Statement (.wmem a v) := ⟨rfl, rfl⟩
theorem Shape.call (a : Operand) : Shape.Statement (.call a) := ⟨rfl, rfl⟩
theorem Shape.ret : Shape.Statement .ret := ⟨rfl, rfl⟩
theorem Shape.out (v : Operand) : Shape.Statement (.out v) := ⟨rfl, rfl⟩
theorem Shape.inp (d : Operand) : Shape.Statement (.inp d) := ⟨rfl, rfl⟩
theorem Shape.noop : Shape.Statement .noop := ⟨rfl, rfl⟩

end Sys2Proof.Laws
end

