-- ==== Sys2Proof/Laws/Record.lean ====
section
/-! SUPPORT. The unified record (R25) and the reset from it (R120): canonical forms, and what is read at each address. -/

namespace Sys2Proof.Machine

open Memory

/-- A register's 16-bit word. -/
theorem mem_regCells {k : Nat} {vs : List Value} {c : Cell} (h : c ∈ regCells k vs) :
    32768 + k ≤ c.1 ∧ c.1 < 32768 + k + vs.length ∧ c.2 ≠ unlisted := by
  induction vs generalizing k with
  | nil => cases h
  | cons v vs ih =>
    rw [regCells] at h
    rcases List.mem_append.1 h with h | h
    · obtain ⟨rfl, hv⟩ := mem_cell.1 h
      simp only [Config.regBase, List.length_cons]
      exact ⟨by omega, by omega, hv⟩
    · have := ih h
      simp only [List.length_cons]
      exact ⟨by omega, by omega, this.2.2⟩

theorem pairwise_cell (a : Nat) (v : CodeWord) : (cell a v).Pairwise fun c d => c.1 < d.1 := by
  unfold cell
  split <;> simp

theorem pairwise_regCells (k : Nat) (vs : List Value) : (regCells k vs).Pairwise fun c d => c.1 < d.1 := by
  induction vs generalizing k with
  | nil => exact List.Pairwise.nil
  | cons v vs ih =>
    rw [regCells]
    refine List.pairwise_append.2 ⟨pairwise_cell _ _, ih _, fun c hc d hd => ?_⟩
    rw [(mem_cell.1 hc).1]
    have := mem_regCells hd
    simp only [Config.regBase]
    omega

theorem read_regCells (k : Nat) (vs : List Value) (i : Nat) (h : i < vs.length) :
    Memory.read (regCells k vs) (32768 + k + i) = vs[i].setWidth 16 := by
  induction vs generalizing k i with
  | nil => cases h
  | cons v vs ih =>
    rw [regCells]
    cases i with
    | zero =>
      rw [read_append_left]
      · simp [Config.regBase]
      · intro c hc
        have := mem_regCells hc
        omega
    | succ i =>
      rw [read_append_right, show 32768 + k + (i + 1) = 32768 + (k + 1) + i by omega,
        ih (k + 1) i (by simpa using h)]
      · rfl
      · intro c hc
        rw [(mem_cell.1 hc).1]
        simp only [Config.regBase]
        omega

theorem cap_eq (s : State) : s.cap = s.memSize - 32778 := by
  simp only [State.cap, Config.stackCapacity, Config.stackBase]
  omega

/-- The stack part of the unified record. -/
def stackCells (s : State) : Memory := s.stk.map fun c => (Config.stackBase + c.1, c.2)

theorem mem_stackCells {s : State} (h : Memory.wf s.cap s.stk) {c : Cell} (hc : c ∈ stackCells s) :
    32776 ≤ c.1 ∧ c.1 < 32776 + s.cap ∧ c.2 ≠ unlisted := by
  obtain ⟨d, hd, rfl⟩ := List.mem_map.1 hc
  have := h.2 d hd
  simp only [Config.stackBase]
  exact ⟨by omega, by omega, this.2⟩

theorem pairwise_stackCells {s : State} (h : Memory.wf s.cap s.stk) :
    (stackCells s).Pairwise fun c d => c.1 < d.1 := by
  rw [stackCells, List.pairwise_map]
  exact h.1.imp fun {c d} hcd => by simp only; omega

theorem unified_eq (s : State) :
    s.unified = s.code ++ regCells 0 s.regs.toList ++ stackCells s ++
      cell (s.memSize - 2) (trailerSp s.sp) ++ cell (s.memSize - 1) s.pc := rfl

/-- Where each part of the unified record lies. -/
theorem unified_parts {s : State} (h : s.Inv) :
    (∀ c ∈ s.code, c.1 < 32768) ∧
    (∀ c ∈ regCells 0 s.regs.toList, 32768 ≤ c.1 ∧ c.1 < 32776) ∧
    (∀ c ∈ stackCells s, 32776 ≤ c.1 ∧ c.1 < s.memSize - 2) ∧
    (∀ c ∈ cell (s.memSize - 2) (trailerSp s.sp), c.1 = s.memSize - 2) ∧
    (∀ c ∈ cell (s.memSize - 1) s.pc, c.1 = s.memSize - 1) ∧ 32778 ≤ s.memSize := by
  have hm : 32778 ≤ s.memSize := h.memSize_ge
  refine ⟨fun c hc => (h.code_wf.2 c hc).1, fun c hc => ?_, fun c hc => ?_, fun c hc => ?_, fun c hc => ?_, hm⟩
  · have := mem_regCells hc
    simp at this
    omega
  · have := mem_stackCells h.stk_wf hc
    have := cap_eq s
    omega
  · rw [(mem_cell.1 hc).1]
  · rw [(mem_cell.1 hc).1]

/-- The record of a legal state is a canonical store of MEM_SIZE words. -/
theorem wf_unified {s : State} (h : s.Inv) : Memory.wf s.memSize s.unified := by
  obtain ⟨hc, hr, hs, h2, h1, hm⟩ := unified_parts h
  rw [unified_eq]
  refine ⟨?_, fun c hmem => ?_⟩
  · refine List.pairwise_append.2 ⟨List.pairwise_append.2 ⟨List.pairwise_append.2 ⟨List.pairwise_append.2
      ⟨h.code_wf.1, pairwise_regCells _ _, ?_⟩, pairwise_stackCells h.stk_wf, ?_⟩, pairwise_cell _ _, ?_⟩,
      pairwise_cell _ _, ?_⟩
    · intro c hc' d hd
      have := hc c hc'
      have := hr d hd
      omega
    · intro c hc' d hd
      have := hs d hd
      rcases List.mem_append.1 hc' with hc' | hc'
      · have := hc c hc'; omega
      · have := hr c hc'; omega
    · intro c hc' d hd
      have := h2 d hd
      rcases List.mem_append.1 hc' with hc' | hc'
      · rcases List.mem_append.1 hc' with hc' | hc'
        · have := hc c hc'; omega
        · have := hr c hc'; omega
      · have := hs c hc'; omega
    · intro c hc' d hd
      have := h1 d hd
      rcases List.mem_append.1 hc' with hc' | hc'
      · rcases List.mem_append.1 hc' with hc' | hc'
        · rcases List.mem_append.1 hc' with hc' | hc'
          · have := hc c hc'; omega
          · have := hr c hc'; omega
        · have := hs c hc'; omega
      · have := h2 c hc'; omega
  · rcases List.mem_append.1 hmem with hmem | hmem
    · rcases List.mem_append.1 hmem with hmem | hmem
      · rcases List.mem_append.1 hmem with hmem | hmem
        · rcases List.mem_append.1 hmem with hmem | hmem
          · have := hc c hmem
            exact ⟨by omega, (h.code_wf.2 c hmem).2⟩
          · have := hr c hmem
            exact ⟨by omega, (mem_regCells hmem).2.2⟩
        · have := hs c hmem
          exact ⟨by omega, (mem_stackCells h.stk_wf hmem).2.2⟩
      · have := h2 c hmem
        exact ⟨by omega, by rw [(mem_cell.1 hmem).1]; exact (mem_cell.1 hmem).2⟩
    · have := h1 c hmem
      exact ⟨by omega, by rw [(mem_cell.1 hmem).1]; exact (mem_cell.1 hmem).2⟩

/-- The code part of a reset is canonical. -/
theorem wf_resetFrom_code {s : State} {L : Memory} (h : Memory.wf s.memSize L) :
    Memory.wf Config.codeSize (s.resetFrom L).code :=
  wf_filter _ h fun c hc => by simpa using hc

/-- The stack part of a reset is canonical. -/
theorem wf_resetFrom_stk {s : State} {L : Memory} (h : Memory.wf s.memSize L) :
    Memory.wf s.cap (s.resetFrom L).stk := by
  have hk : ∀ c ∈ L.filter (fun c => decide (Config.stackBase ≤ c.1 ∧ c.1 < Config.stackBase + s.cap)),
      Config.stackBase ≤ c.1 ∧ c.1 < Config.stackBase + s.cap := fun c hc => by
    have := (List.mem_filter.1 hc).2
    simpa using this
  refine wf_shift_down (bound := Config.stackBase + s.cap) (wf_filter _ h fun c hc => ?_) hk
  have := of_decide_eq_true hc
  exact this.2

/-- CODE after a reset (R120). -/
theorem read_resetFrom_code (s : State) (L : Memory) (a : Nat) (h : a < 32768) :
    (s.resetFrom L).code.read a = L.read a := by
  have := read_filter L (fun a => decide (a < Config.codeSize)) a
  simp only [Config.codeSize, h, decide_true, if_true] at this
  exact this

/-- STK after a reset (R120). -/
theorem read_resetFrom_stk (s : State) (L : Memory) (i : Nat) (h : i < s.cap) :
    (s.resetFrom L).stk.read i = L.read (32776 + i) := by
  have hf := read_filter L (fun a => decide (Config.stackBase ≤ a ∧ a < Config.stackBase + s.cap)) (32776 + i)
  have hp : decide (Config.stackBase ≤ 32776 + i ∧ 32776 + i < Config.stackBase + s.cap) = true :=
    decide_eq_true ⟨by simp only [Config.stackBase]; omega, by simp only [Config.stackBase]; omega⟩
  rw [hp, if_pos rfl] at hf
  rw [← hf]
  refine read_shift_down _ Config.stackBase i fun c hc => ?_
  have := (List.mem_filter.1 hc).2
  exact (of_decide_eq_true this).1

end Sys2Proof.Machine
end

