-- ==== Sys2Proof/Laws/Step.lean ====
section
/-! SUPPORT. The arms of a step, and what fetch gives. -/

namespace Sys2Proof.Machine

theorem step_of_request {s : State} {L : Memory} (h : s.env.resetRequest = some L) :
    step s = .next (s.resetFrom L) := by
  simp [step, h]

theorem step_of_halted {s : State} (h : s.env.resetRequest = none) (hr : s.run = .halted) :
    step s = .fault .halted := by
  simp [step, h, hr]

theorem step_of_faulted {s : State} {c : Cause} (h : s.env.resetRequest = none) (hr : s.run = .faulted c) :
    step s = .fault (.faulted c) := by
  simp [step, h, hr]

theorem step_of_decode_error {s : State} {c : Cause} (h : s.Ready) (hd : decodeChecked s.fetch = .error c) :
    step s = .next (s.takeFault c) := by
  simp [step, h.1, h.2, hd]

theorem step_of_decode_ok {s : State} {i : Instr} (h : s.Ready) (hd : decodeChecked s.fetch = .ok i) :
    step s = exec i s := by
  simp [step, h.1, h.2, hd]

/-- A Ready step enters a Decode fault or runs the decoded instruction. -/
theorem step_ready_cases {s : State} (h : s.Ready) :
    (∃ c, decodeChecked s.fetch = .error c ∧ step s = .next (s.takeFault c)) ∨
      (∃ i, decodeChecked s.fetch = .ok i ∧ step s = exec i s) := by
  cases hd : decodeChecked s.fetch with
  | error c => exact .inl ⟨c, rfl, step_of_decode_error h hd⟩
  | ok i => exact .inr ⟨i, rfl, step_of_decode_ok h hd⟩

namespace Memory

theorem fetch_beyond (m : Memory) (n a : Nat) (h : 32768 ≤ a) : m.fetch n a = [] := by
  cases n with
  | zero => rfl
  | succ n =>
    rw [fetch, if_neg]
    simp only [Config.codeSize]
    omega

theorem fetch_succ (m : Memory) (n a : Nat) (h : a < 32768) : m.fetch (n + 1) a = m.read a :: m.fetch n (a + 1) := by
  rw [fetch, if_pos]
  exact h

theorem fetch_length_le (m : Memory) (n a : Nat) : a + (m.fetch n a).length ≤ max a 32768 := by
  induction n generalizing a with
  | zero => simp [fetch]
  | succ n ih =>
    by_cases h : a < 32768
    · rw [fetch_succ m n a h, List.length_cons]
      have := ih (a + 1)
      omega
    · rw [fetch_beyond m _ a (by omega)]
      simp

/-- Words that stand in a row from a on, inside the region, are what fetch begins with. -/
theorem fetch_of_words (m : Memory) (n a : Nat) (ws : List CodeWord) (hn : ws.length ≤ n) (ha : a + ws.length ≤ 32768)
    (h : ∀ (k : Nat) (hk : k < ws.length), m.read (a + k) = ws[k]) :
    ∃ rest, m.fetch n a = ws ++ rest := by
  induction ws generalizing n a with
  | nil => exact ⟨_, rfl⟩
  | cons w ws ih =>
    cases n with
    | zero => simp at hn
    | succ n =>
      rw [List.length_cons] at ha hn
      obtain ⟨rest, hr⟩ := ih n (a + 1) (by omega) (by omega) fun k hk => by
        have := h (k + 1) (by simp; omega)
        rw [show a + 1 + k = a + (k + 1) by omega, this]
        rfl
      have h0 := h 0 (by simp)
      refine ⟨rest, ?_⟩
      rw [fetch_succ m n a (by omega), hr, show m.read a = w by simpa using h0]
      rfl

end Memory

/-- Fetch begins with the words that stand at pc. -/
theorem fetch_of_wordsAt {s : State} {ws : List CodeWord} (h : s.WordsAt ws) (hl : ws.length ≤ 4) :
    ∃ rest, s.fetch = ws ++ rest :=
  Memory.fetch_of_words _ _ _ _ hl h.1 h.2

end Sys2Proof.Machine
end

