-- ==== Sys2Proof/Tests/Slice0.lean ====
section
/-! SUPPORT. The model's own tests: ill-formed instructions, decoding by words written out from R47, single steps whose
expected values are those of spec/95_test_vectors.md (cited as V<n>) or of an instruction rule's own example, and for every
statement with hypotheses a concrete witness that meets them. -/

namespace Sys2Proof.Tests

open Sys2Proof.Machine

/-- S0 of 95_test_vectors.md with the words placed at pc. -/
def boot (pc : CodeWord) (ws : List CodeWord) : State :=
  { State.reset with pc := pc, code := Memory.place [] pc.toNat ws }

/-- A next state with the property. -/
def nextIs (r : Result) (p : State → Bool) : Bool :=
  match r with
  | .next t => p t
  | .fault _ => false
  | .refused _ => false

/-- The next state, or s where there is none. -/
def nextOf (r : Result) (s : State) : State :=
  match r with
  | .next t => t
  | .fault _ => s
  | .refused _ => s

/-- The step takes the fault c and leaves x, pc, sp, STK and CODE. -/
def faultsWith (c : Cause) (s : State) : Bool :=
  nextIs (step s) fun t => t == { s with run := .faulted c, env := t.env }

/-- The same state with register r holding v. -/
def withReg (s : State) (r : RegIdx) (v : Value) : State := { s with regs := s.regs.set r v }

/-- The same state with the stack slots ws from slot 0 on, all pushed. -/
def withStack (s : State) (ws : List CodeWord) : State := { s with stk := Memory.place [] 0 ws, sp := ws.length }

/-- The same state with answers ready on the host's side. -/
def withHost (s : State) (input : List InputAnswer) (answers : List SnapshotAnswer) : State :=
  { s with env := { s.env with input := input, snapshotAnswers := answers } }

/-- The same state with a reset asked for. -/
def withReset (s : State) (L : Memory) : State := { s with env := { s.env with resetRequest := some L } }

/-! ### WellFormed: one ill-formed term for each check -/

theorem test_literal_destination_is_ill_formed : (Instr.set (.lit 5) (.lit 5)).wellFormed = false := by decide
theorem test_invalid_destination_is_ill_formed : (Instr.inp (.invalid 32776)).wellFormed = false := by decide
theorem test_invalid_value_is_ill_formed : (Instr.push (.invalid 40000)).wellFormed = false := by decide

/-- In each destination position a literal, and in each value position an invalid word, is refused. -/
theorem test_each_position_is_checked :
    (let l : Operand := .lit 0; let r : Operand := .reg 0; let x : Operand := .invalid 32776
     let bad : List Instr :=
       [.set l r, .set r x, .push x, .pop l, .pop x, .eq l r r, .eq r x r, .eq r r x, .gt l r r, .gt r x r, .gt r r x] ++
       [.jmp x, .jt x r, .jt r x, .jf x r, .jf r x, .add l r r, .add r x r, .add r r x, .mult l r r, .mult r x r] ++
       [.mult r r x, .mod l r r, .mod r x r, .mod r r x, .and l r r, .and r x r, .and r r x, .or l r r, .or r x r] ++
       [.or r r x, .not l r, .not r x, .rmem l r, .rmem r x, .wmem x r, .wmem r x, .call x, .out x, .inp l, .inp x]
     bad.all fun i => !i.wellFormed) = true := by decide

theorem test_wmem_first_operand_is_a_value : (Instr.wmem (.lit 52) (.lit 9)).wellFormed = true := by decide

/-! ### Decode: the words of R47, written out -/

theorem test_decode_halt : decode [0] = .ok (.halt, []) := by decide
theorem test_decode_set : decode [1, 32769, 32768] = .ok (.set (.reg 1) (.reg 0), []) := by decide
theorem test_decode_push : decode [2, 32771] = .ok (.push (.reg 3), []) := by decide
theorem test_decode_pop : decode [3, 32775] = .ok (.pop (.reg 7), []) := by decide
theorem test_decode_eq : decode [4, 32768, 32769, 5] = .ok (.eq (.reg 0) (.reg 1) (.lit 5), []) := by decide
theorem test_decode_gt : decode [5, 32770, 32767, 1] = .ok (.gt (.reg 2) (.lit 32767) (.lit 1), []) := by decide
theorem test_decode_jmp : decode [6, 100] = .ok (.jmp (.lit 100), []) := by decide
theorem test_decode_jt : decode [7, 32768, 50] = .ok (.jt (.reg 0) (.lit 50), []) := by decide
theorem test_decode_jf : decode [8, 0, 12] = .ok (.jf (.lit 0) (.lit 12), []) := by decide
theorem test_decode_add : decode [9, 32769, 32768, 4] = .ok (.add (.reg 1) (.reg 0) (.lit 4), []) := by decide
theorem test_decode_mult : decode [10, 32769, 1000, 32770] = .ok (.mult (.reg 1) (.lit 1000) (.reg 2), []) := by decide
theorem test_decode_mod : decode [11, 32768, 17, 5] = .ok (.mod (.reg 0) (.lit 17) (.lit 5), []) := by decide
theorem test_decode_and : decode [12, 32768, 12, 10] = .ok (.and (.reg 0) (.lit 12) (.lit 10), []) := by decide
theorem test_decode_or : decode [13, 32768, 12, 10] = .ok (.or (.reg 0) (.lit 12) (.lit 10), []) := by decide
theorem test_decode_not : decode [14, 32768, 21845] = .ok (.not (.reg 0) (.lit 21845), []) := by decide
theorem test_decode_rmem : decode [15, 32770, 200] = .ok (.rmem (.reg 2) (.lit 200), []) := by decide
theorem test_decode_wmem : decode [16, 32769, 77] = .ok (.wmem (.reg 1) (.lit 77), []) := by decide
theorem test_decode_call : decode [17, 40] = .ok (.call (.lit 40), []) := by decide
theorem test_decode_ret : decode [18, 7] = .ok (.ret, [7]) := by decide
theorem test_decode_out : decode [19, 65, 0] = .ok (.out (.lit 65), [0]) := by decide
theorem test_decode_in : decode [20, 32768] = .ok (.inp (.reg 0), []) := by decide
theorem test_decode_noop : decode [21] = .ok (.noop, []) := by decide

/-- The operand words of R62, with the table's numbering of bits: the first word is the low one. -/
theorem test_decode_table_word :
    decodeTableWord 64 (9 + 32769 * 65536 + 32768 * 65536 ^ 2 + 4 * 65536 ^ 3) =
      some (.add (.reg 1) (.reg 0) (.lit 4)) := by decide

theorem test_decode_table_word_short : decodeTableWord 16 19 = some (.out (.lit 0)) := by decide
theorem test_decode_table_word_refuses : decodeTableWord 16 22 = none := by decide

/-- V1, V2, V3. -/
theorem test_illegal_opcodes :
    ([22, 65535, 32768].all fun w => faultsWith .illegalOpcode (boot 0 [w])) = true := by decide

/-- V4, V5, V7: the leftmost failing operand decides. -/
theorem test_bad_destinations :
    ([[1, 5, 5], [1, 32776, 5], [4, 5, 32776, 0]].all fun ws => faultsWith .invalidDestination (boot 0 ws)) = true := by
  decide

/-- V6, V8, V14. -/
theorem test_bad_values :
    ([[1, 32768, 32776], [9, 32768, 32768, 40000], [7, 0, 32776]].all fun ws =>
      faultsWith .invalidOperand (boot 0 ws)) = true := by decide

/-- V9: the last word of the region runs and pc leaves it, and the next step faults there. -/
theorem test_noop_at_the_top :
    nextIs (step (boot 32767 [21])) (fun t => t.pc == 32768 && faultsWith .pcOutOfRange t) = true := by decide

/-- V10, V13. -/
theorem test_beyond_the_region :
    (faultsWith .pcOutOfRange (boot 32766 [1, 32768]) && faultsWith .pcOutOfRange (boot 32768 [])) = true := by decide

/-- V12. -/
theorem test_opcode_before_length : faultsWith .illegalOpcode (boot 32767 [22]) = true := by decide

/-- V15. -/
theorem test_bad_in_consumes_nothing :
    nextIs (step (withHost (boot 0 [20, 7]) [.byte 1] []))
      (fun t => t.run == .faulted .invalidDestination && t.env.input == [.byte 1]) = true := by decide

/-! ### Single steps -/

/-- V40. -/
theorem test_set :
    nextIs (step (withReg (boot 0 [1, 32769, 32768]) 0 7)) (fun t => t.reg 1 == 7 && t.pc == 3) = true := by decide

/-- V31. -/
theorem test_set_last_register :
    nextIs (step (withReg (boot 0 [1, 32775, 32768]) 0 11)) (fun t => t.reg 7 == 11 && t.reg 0 == 11) = true := by decide

/-- V42. -/
theorem test_push :
    nextIs (step (withReg (boot 0 [2, 32771]) 3 9)) (fun t => t.stk.read 0 == 9 && t.sp == 1 && t.pc == 2) = true := by
  decide

/-- V44. -/
theorem test_push_full : faultsWith .stackOverflow { boot 0 [2, 1] with sp := 32758 } = true := by decide

/-- V45: the slot keeps its word. -/
theorem test_pop :
    nextIs (step (withStack (boot 0 [3, 32768]) [9]))
      (fun t => t.reg 0 == 9 && t.sp == 0 && t.pc == 2 && t.stk.read 0 == 9) = true := by decide

/-- V46, V47. -/
theorem test_pop_faults :
    (faultsWith .stackUnderflow (boot 0 [3, 32768]) &&
      faultsWith .valueOutOfRange (withStack (boot 0 [3, 32768]) [32768])) = true := by decide

/-- V50, V51, V52. -/
theorem test_eq :
    ([(5, 5, 1), (5, 6, 0), (6, 5, 0)].all fun (a, b, z) =>
      nextIs (step (boot 0 [4, 32768, a, b])) fun t => (t.reg 0).setWidth 16 == (z : CodeWord) && t.pc == 4) = true := by
  decide

/-- V50, V52, V54, V55: strict and unsigned. -/
theorem test_gt :
    ([(5, 5, 0), (6, 5, 1), (32767, 0, 1), (0, 32767, 0)].all fun (a, b, z) =>
      nextIs (step (boot 0 [5, 32768, a, b])) fun t => (t.reg 0).setWidth 16 == (z : CodeWord) && t.pc == 4) = true := by
  decide

/-- V60, V61. -/
theorem test_jmp :
    (nextIs (step (boot 0 [6, 100])) (fun t => t.pc == 100) &&
      nextIs (step (withReg (boot 0 [6, 32768]) 0 32767)) (fun t => t.pc == 32767)) = true := by decide

/-- V62, V63, V64. -/
theorem test_jt :
    (nextIs (step (boot 20 [7, 0, 50])) (fun t => t.pc == 23) && nextIs (step (boot 20 [7, 1, 50])) (fun t => t.pc == 50) &&
      nextIs (step (withReg (boot 20 [7, 32770, 50]) 2 32767)) (fun t => t.pc == 50)) = true := by decide

/-- V65, V66. -/
theorem test_jf :
    (nextIs (step (boot 20 [8, 0, 12])) (fun t => t.pc == 12) &&
      nextIs (step (boot 20 [8, 9, 12])) (fun t => t.pc == 23)) = true := by decide

/-- V71: the return address is exact. -/
theorem test_call_at_the_top :
    nextIs (step (boot 32766 [17, 40])) (fun t => t.stk.read 0 == 32768 && t.sp == 1 && t.pc == 40) = true := by decide

/-- V68. -/
theorem test_call_full : faultsWith .stackOverflow { boot 10 [17, 40] with sp := 32758 } = true := by decide

/-- V69, V72. -/
theorem test_ret :
    (nextIs (step (withStack (boot 40 [18]) [12])) (fun t => t.sp == 0 && t.pc == 12) &&
      nextIs (step (withStack (boot 40 [18]) [32768])) (fun t => t.pc == 32768 && t.run == .running)) = true := by decide

/-- V70. -/
theorem test_ret_empty : faultsWith .stackUnderflow (boot 40 [18]) = true := by decide

/-- V82, V83, V85. -/
theorem test_add :
    ([(32767, 1, 0), (32767, 32767, 32766), (32758, 15, 5)].all fun (a, b, z) =>
      nextIs (step (boot 0 [9, 32771, a, b])) fun t => (t.reg 3).setWidth 16 == (z : CodeWord)) = true := by decide

/-- V30: the sources are read before the write. -/
theorem test_add_source_is_destination :
    nextIs (step (withReg (boot 0 [9, 32768, 32768, 32768]) 0 11)) (fun t => t.reg 0 == 22 && t.pc == 4) = true := by decide

/-- V83, V85, V91. -/
theorem test_mult :
    ([(32767, 32767, 1), (32758, 15, 32618), (21845, 10922, 7282)].all fun (a, b, z) =>
      nextIs (step (boot 0 [10, 32771, a, b])) fun t => (t.reg 3).setWidth 16 == (z : CodeWord) && t.pc == 4) = true := by
  decide

/-- V85, V88, V89. -/
theorem test_mod :
    ([(32758, 15, 13), (17, 5, 2), (5, 17, 5)].all fun (a, b, z) =>
      nextIs (step (boot 0 [11, 32771, a, b])) fun t => (t.reg 3).setWidth 16 == (z : CodeWord) && t.pc == 4) = true := by
  decide

/-- V90. -/
theorem test_mod_by_zero : faultsWith .divideByZero (boot 0 [11, 32771, 7, 0]) = true := by decide

/-- V85, V88. -/
theorem test_and :
    ([(32758, 15, 6), (17, 5, 1)].all fun (a, b, z) =>
      nextIs (step (boot 0 [12, 32771, a, b])) fun t => (t.reg 3).setWidth 16 == (z : CodeWord) && t.pc == 4) = true := by
  decide

/-- V87, V91. -/
theorem test_or :
    ([(12, 10, 14), (21845, 10922, 32767)].all fun (a, b, z) =>
      nextIs (step (boot 0 [13, 32771, a, b])) fun t => (t.reg 3).setWidth 16 == (z : CodeWord) && t.pc == 4) = true := by
  decide

/-- V92, V95. -/
theorem test_not :
    ([(0, 32767), (21845, 10922)].all fun (a, z) =>
      nextIs (step (boot 0 [14, 32771, a])) fun t => (t.reg 3).setWidth 16 == (z : CodeWord) && t.pc == 3) = true := by
  decide

/-- V100, V102. -/
theorem test_rmem :
    (nextIs (step { boot 0 [15, 32770, 200] with code := [(0, 15), (1, 32770), (2, 200), (200, 1234)] })
        (fun t => t.reg 2 == 1234 && t.pc == 3) &&
      nextIs (step (boot 100 [15, 32768, 100])) (fun t => t.reg 0 == 15)) = true := by decide

/-- V101: a register reference in code cannot be read into a register. -/
theorem test_rmem_out_of_range : faultsWith .valueOutOfRange (boot 0 [15, 32770, 1]) = true := by decide

/-- V103, V105. -/
theorem test_wmem :
    (nextIs (step (withReg (boot 0 [16, 32769, 77]) 1 300)) (fun t => t.code.read 300 == 77 && t.pc == 3) &&
      nextIs (step (boot 50 [16, 52, 9])) (fun t => t.code.read 52 == 9)) = true := by decide

/-- Storing 0 takes the word out of the list: the canonical form is kept. -/
theorem test_wmem_zero_is_unlisted :
    nextIs (step (boot 0 [16, 2, 0])) (fun t => t.code == [(0, 16), (1, 2)]) = true := by decide

/-- V110, V11. -/
theorem test_halt :
    (nextIs (step (boot 2 [0])) (fun t => t.run == .halted && t.pc == 2 && t.env.output == []) &&
      nextIs (step (boot 32767 [0])) (fun t => t.run == .halted && t.pc == 32767)) = true := by decide

/-- V111. -/
theorem test_noop : nextIs (step (boot 5 [21])) (fun t => t == { boot 5 [21] with pc := 6 }) = true := by decide

/-- V112 to V115. -/
theorem test_out :
    ([(65, 65), (321, 65), (256, 0), (32767, 255)].all fun (v, b) =>
      nextIs (step (boot 0 [19, v])) fun t => t.env.output == [(b : Byte)] && t.pc == 2) = true := by decide

/-- V116, V118, V119, V120. -/
theorem test_in :
    (nextIs (step (withHost (boot 0 [20, 32768]) [.byte 104] [])) (fun t => t.reg 0 == 104 && t.pc == 2) &&
      nextIs (step (withHost (boot 0 [20, 32768]) [.byte 255] [])) (fun t => t.reg 0 == 255) &&
      faultsWith .inputEnd (withHost (boot 0 [20, 32768]) [.endOfInput] []) &&
      faultsWith .inputError (withHost (boot 0 [20, 32768]) [.error] [])) = true := by decide

/-- V121, V122: the record holds the state about to be committed, and a failed save leaves the state and the byte consumed. -/
theorem test_in_save :
    (nextIs (step (withHost (boot 0 [20, 32768]) [.byte 16] [.ok])) (fun t =>
        t.reg 0 == 16 && t.pc == 2 &&
          t.env.events == [.input (.byte 16), .snapshot [(0, 20), (1, 32768), (32768, 16), (65535, 2)] .ok]) &&
      nextIs (step (withHost (boot 0 [20, 32768]) [.byte 16] [.error])) (fun t =>
        t.run == .faulted .snapshotError && t.reg 0 == 0 && t.pc == 0 && t.env.input == [])) = true := by decide

/-- V20 to V29: the resolver and the destination decoder on operand words. -/
theorem test_resolver :
    (let s := withReg (withReg State.reset 0 11) 7 77
     [val s (.ofWord 0), val s (.ofWord 32767), val s (.ofWord 32768), val s (.ofWord 32775), val s (.ofWord 32776)] =
       [.ok 0, .ok 32767, .ok 11, .ok 77, .error .invalidOperand] ∧
     [dst (.ofWord 32768), dst (.ofWord 32775), dst (.ofWord 32767), dst (.ofWord 0)] =
       [.ok 0, .ok 7, .error .invalidDestination, .error .invalidDestination]) := by decide

/-! ### Reset -/

/-- V130. -/
theorem test_reset_fresh :
    nextIs (step (withReset (boot 9 [99]) [(0, 19), (1, 65)]))
      (fun t => t == { State.reset with code := [(0, 19), (1, 65)] }) = true := by decide

/-- V131, V132. -/
theorem test_reset_invalid :
    (nextIs (step (withReset State.reset [(32768, 40000)])) (fun t => t.run == .faulted .resetInvalid && t.reg 0 == 0) &&
      nextIs (step (withReset State.reset [(65534, 32759)])) (fun t => t.run == .faulted .resetInvalid && t.sp == 0)) =
      true := by decide

/-- V133, V134. -/
theorem test_reset_loads :
    (nextIs (step (withReset State.reset [(65535, 40000)])) (fun t => t.pc == 40000 && faultsWith .pcOutOfRange t) &&
      nextIs (step (withReset State.reset [(40, 18), (32776, 12), (65534, 1), (65535, 40)])) (fun t =>
        nextIs (step t) fun u => u.pc == 12 && u.sp == 0)) = true := by decide

/-- The memories of the state after reset are in canonical form. -/
theorem test_reset_memories_wf :
    Memory.wf Config.codeSize State.reset.code ∧ Memory.wf State.reset.cap State.reset.stk := by decide

/-- The host's load: the very next step runs the placed instruction. -/
theorem test_with_fetch_word :
    nextIs (step (State.reset.withFetchWord 32 (19 + 65 * 65536))) (fun t => t.env.output == [65]) = true := by decide

/-! ### Witnesses: for each statement, a state and operands that meet its hypotheses together -/

theorem inv_of (s : State) (h : Config.minMemSize ≤ s.memSize ∧ Memory.wf Config.codeSize s.code ∧
    Memory.wf s.cap s.stk ∧ s.sp ≤ s.cap ∧ s.env.resetRequest = none) : s.Inv :=
  ⟨h.1, h.2.1, h.2.2.1, h.2.2.2.1, fun L hL => by simp [h.2.2.2.2] at hL⟩

theorem words_of (s : State) (ws : List CodeWord) (h : s.pc.toNat + ws.length ≤ 32768 ∧
    (List.range ws.length).all (fun k => s.code.read (s.pc.toNat + k) == ws.getD k 0) = true) : s.WordsAt ws := by
  refine ⟨h.1, fun k hk => ?_⟩
  have := List.all_eq_true.1 h.2 k (List.mem_range.2 hk)
  simpa [List.getElem?_eq_getElem hk] using this

theorem ready_of (s : State) (h : s.run = .running ∧ s.env.resetRequest = none) : s.Ready := h

/-- A block with a stack of two slots that holds one entry. -/
def half : State := { withStack State.reset [9] with memSize := 32780 }

/-- The same block with a full stack. -/
def full : State := { withStack State.reset [9, 40000] with memSize := 32780 }

/-- A block at an IN, the host's answers ready: the save trigger, then Ok. -/
def saving : State := withHost (boot 0 [20, 32768]) [.byte 16] [.ok]

theorem half_inv : half.Inv := inv_of _ (by decide)
theorem full_inv : full.Inv := inv_of _ (by decide)
theorem saving_inv : saving.Inv := inv_of _ (by decide)

/-- OperandWordClasses at the boundaries of its three ranges. -/
theorem witness_OperandWordClasses :
    [0, 32767, 32768, 32775, 32776, 65535].map Operand.ofWord =
      [.lit 0, .lit 32767, .reg 0, .reg 7, .invalid 32776, .invalid 65535] := by decide

theorem witness_DecodeOfEncode : (Instr.wmem (.reg 7) (.lit 32767)).wellFormed = true := by decide
theorem witness_EncodeOfDecode : decode [16, 32775, 32767, 5] = .ok (.wmem (.reg 7) (.lit 32767), [5]) := by decide

/-- OpcodeMapRuns: for each row the row's words stand at pc; 32769 is a register reference and so a value word too. -/
theorem witness_OpcodeMapRuns :
    ((boot 0 []).Ready ∧ IsRegisterWord 32769 ∧ IsValueWord 32769 ∧ IsValueWord 32767) ∧
    ∀ m ∈ Mnemonic.all, (boot 0 ([m.opcode, 32769, 32769, 32767].take (1 + m.kinds.length))).WordsAt
      ([m.opcode, 32769, 32769, 32767].take (1 + m.kinds.length)) := by
  refine ⟨by unfold State.Ready IsRegisterWord IsValueWord; decide, fun m _ => words_of _ _ ?_⟩
  cases m <;> decide

theorem witness_StepRunsDecodedInstr :
    (boot 0 [19, 65]).Ready ∧ decode (boot 0 [19, 65]).fetch = .ok (.out (.lit 65), [0, 0]) ∧
      (Instr.out (.lit 65)).wellFormed = true := by
  unfold State.Ready; decide

theorem witness_IllegalOpcodeFaults :
    (boot 32767 [22]).Ready ∧ (boot 32767 [22]).pc.toNat ≤ 32767 ∧ 22 ≤ (boot 32767 [22]).opcodeAt := by
  unfold State.Ready; decide

/-- FetchBeyondRegionFaults, its two clauses: pc at 32768, and a SET whose last word lies at 32768. -/
theorem witness_FetchBeyondRegionFaults :
    ((boot 32768 []).Ready ∧ 32768 ≤ (boot 32768 []).pc.toNat) ∧
    ((boot 32766 [1, 32768]).Ready ∧ (boot 32766 [1, 32768]).pc.toNat ≤ 32767 ∧
      (boot 32766 [1, 32768]).code.read 32766 = Mnemonic.set.opcode ∧ 32768 ≤ 32766 + Mnemonic.set.kinds.length) := by
  unfold State.Ready; decide

/-- FirstBadOperandFaults: the third operand of an ADD is the first that does not fit. -/
theorem witness_FirstBadOperandFaults :
    (boot 0 [9, 32775, 0, 32776]).Ready ∧
    (boot 0 [9, 32775, 0, 32776]).WordsAt (Mnemonic.add.opcode :: [32775, 0, 32776]) ∧
    [(32775 : CodeWord), 0, 32776].length = Mnemonic.add.kinds.length ∧
    Fits .dst 32775 ∧ Fits .val 0 ∧ ¬ Fits .val 32776 :=
  ⟨ready_of _ (by decide), words_of _ _ (by decide), rfl, by simp [Fits, IsRegisterWord], by simp [Fits, IsValueWord],
    by simp [Fits, IsValueWord]⟩

/-- The operands of the result statements: a literal denotes itself in any state, a register its content. -/
theorem witness_Denotes :
    Denotes (withReg State.reset 7 77) (.reg 7) 77 ∧ Denotes (withReg State.reset 7 77) (.lit 32767) 32767 :=
  ⟨.reg 7, .lit 32767⟩

/-- PushStoresAtSp and CallPushesReturnAddress, both clauses each, with the pc at its bound. -/
theorem witness_PushStoresAtSp :
    (full.Inv ∧ full.sp = full.memSize - 32776 - 2) ∧ (half.Inv ∧ half.sp ≠ half.memSize - 32776 - 2) ∧
    Denotes half (.lit 32767) 32767 ∧ Denotes full (.reg 0) 0 :=
  ⟨⟨full_inv, by decide⟩, ⟨half_inv, by decide⟩, .lit _, .reg 0⟩

theorem witness_CallPushesReturnAddress :
    ({ half with pc := 32767 } : State).Inv ∧ ({ half with pc := 32767 } : State).pc.toNat ≤ 32767 ∧
    ({ half with pc := 32767 } : State).sp ≠ half.memSize - 32776 - 2 ∧ Denotes { half with pc := 32767 } (.reg 0) 0 ∧
    full.Inv ∧ full.pc.toNat ≤ 32767 ∧ full.sp = full.memSize - 32776 - 2 ∧ Denotes full (.lit 40) 40 :=
  ⟨inv_of _ (by decide), by decide, by decide, .reg 0, full_inv, by decide, by decide, .lit _⟩

/-- PopLoadsTop and RetTakesTopAsPc: an empty stack, a top entry above 32767, and one that is a value. -/
theorem witness_PopLoadsTop :
    State.reset.sp = 0 ∧ (full.sp ≠ 0 ∧ 32767 < (full.stk.read (full.sp - 1)).toNat) ∧
    (half.sp ≠ 0 ∧ (9 : Value).toNat = (half.stk.read (half.sp - 1)).toNat) := by decide

/-- JtAndJfTestCondition and ModIsRemainderOrFault: an operand that is 0 and one that is not. -/
theorem witness_zero_and_nonzero :
    Denotes half (.reg 0) 0 ∧ (0 : Value).toNat = 0 ∧ Denotes half (.lit 32767) 32767 ∧ (32767 : Value).toNat ≠ 0 :=
  ⟨.reg 0, by decide, .lit _, by decide⟩

/-- RmemCopiesCodeWord: a word above 32767 and the largest value. -/
theorem witness_RmemCopiesCodeWord :
    32767 < ((boot 0 [32768, 32767]).code.read (0 : Value).toNat).toNat ∧
    (32767 : Value).toNat = ((boot 0 [32768, 32767]).code.read (1 : Value).toNat).toNat ∧
    Denotes (boot 0 [32768, 32767]) (.lit 1) 1 ∧ Denotes (boot 0 [32768, 32767]) (.reg 0) 0 :=
  ⟨by decide, by decide, .lit _, .reg 0⟩

theorem witness_WmemStoresValue : half.Inv ∧ Denotes half (.lit 32767) 32767 ∧ Denotes half (.reg 0) 0 :=
  ⟨half_inv, .lit _, .reg 0⟩

theorem witness_HaltStopsCleanly : half.env.resetRequest = none := by decide

theorem witness_InStoresByte :
    (withHost State.reset [.byte 255] []).env.input = .byte 255 :: [] ∧ (255 : Byte).toNat ≠ 16 := by decide

theorem witness_InSavesOnTrigger :
    saving.Inv ∧ saving.sp < 65536 ∧ saving.env.input = .byte 16 :: [] ∧ saving.env.snapshotAnswers = .ok :: [] :=
  ⟨saving_inv, by decide, by decide, by decide⟩

/-- InFaultsKeepState, its three clauses. -/
theorem witness_InFaultsKeepState :
    (withHost State.reset [.error] []).env.input = .error :: [] ∧
    (withHost State.reset [.endOfInput] []).env.input = .endOfInput :: [] ∧
    (withHost State.reset [.byte 16] [.error]).env.input = .byte 16 :: [] ∧
    (withHost State.reset [.byte 16] [.error]).env.snapshotAnswers = .error :: [] ∧
    (withHost State.reset [.byte 16] [.error]).Inv ∧ (withHost State.reset [.byte 16] [.error]).sp < 65536 :=
  ⟨by decide, by decide, by decide, by decide, inv_of _ (by decide), by decide⟩

/-- InWaitsForHost, both clauses. -/
theorem witness_InWaitsForHost :
    State.reset.env.input = [] ∧ (withHost State.reset [.byte 16] []).env.input = .byte 16 :: [] ∧
    (withHost State.reset [.byte 16] []).env.snapshotAnswers = [] := by decide

theorem witness_NoopOnlyAdvances : (boot 32767 [21]).pc.toNat ≤ 32767 := by decide

/-- LinearAdvanceIsExact: a HALT, and an ADD at the last address that Decode lets pass. -/
theorem witness_LinearAdvanceIsExact :
    nextIs (exec .halt half) (fun t => t.run == .halted) = true ∧ half.run = .running ∧
    nextIs (exec (.add (.reg 0) (.lit 1) (.lit 2)) (boot 32767 [])) (fun t => t.run == .running) = true ∧
    transfersControl (.add (.reg 0) (.lit 1) (.lit 2)) = false ∧ (boot 32767 []).pc.toNat ≤ 32767 := by decide

theorem witness_ComputingFrame :
    destinationOf (.mod (.reg 0) (.lit 7) (.lit 2)) = some (.reg 0) ∧
    (∀ o, Instr.mod (.reg 0) (.lit 7) (.lit 2) ≠ .pop o) ∧ (∀ o, Instr.mod (.reg 0) (.lit 7) (.lit 2) ≠ .inp o) ∧
    nextIs (exec (.mod (.reg 0) (.lit 7) (.lit 2)) half) (fun t => t.reg 0 == 1) = true :=
  ⟨rfl, nofun, nofun, by decide⟩

/-- PopFrame, PushingFrame, NoStoreFrame, WmemFrame, InFrame: each instruction has a next state with its effect. -/
theorem witness_frames :
    (nextIs (exec (.pop (.reg 0)) half) (fun t => t.reg 0 == 9) && nextIs (exec (.push (.lit 1)) half) (fun t => t.sp == 2) &&
      nextIs (exec (.call (.lit 1)) half) (fun t => t.sp == 2) && nextIs (exec .ret half) (fun t => t.pc == 9) &&
      nextIs (exec .halt half) (fun t => t.run == .halted) && nextIs (exec .noop half) (fun t => t.pc == 1) &&
      nextIs (exec (.jmp (.lit 5)) half) (fun t => t.pc == 5) && nextIs (exec (.jt (.lit 1) (.lit 5)) half) (fun t => t.pc == 5) &&
      nextIs (exec (.jf (.lit 0) (.lit 5)) half) (fun t => t.pc == 5) &&
      nextIs (exec (.out (.lit 5)) half) (fun t => t.env.output == [5]) &&
      nextIs (exec (.wmem (.lit 3) (.lit 5)) half) (fun t => t.code.read 3 == 5) &&
      nextIs (exec (.inp (.reg 0)) saving) (fun t => t.reg 0 == 16)) = true := by decide

/-- OnlyDestinationsWriteRegisters, OnlyStackInstrsReachStack and OnlyWmemWritesCode: steps in which a register, the stack
and a code word do change. -/
theorem witness_changes :
    (boot 0 [1, 32768, 5]).Ready ∧ nextIs (step (boot 0 [1, 32768, 5])) (fun t => t.reg 0 != (boot 0 [1, 32768, 5]).reg 0) = true ∧
    (boot 0 [2, 5]).Ready ∧ nextIs (step (boot 0 [2, 5])) (fun t => t.sp != 0 && t.stk != []) = true ∧
    (boot 0 [16, 32767, 5]).Inv ∧ (boot 0 [16, 32767, 5]).Ready ∧
    nextIs (step (boot 0 [16, 32767, 5])) (fun t => t.code.read 32767 != (boot 0 [16, 32767, 5]).code.read 32767) = true :=
  ⟨ready_of _ (by decide), by decide, ready_of _ (by decide), by decide, inv_of _ (by decide), ready_of _ (by decide), by decide⟩

/-- OnlyInSuspends: each of its three cases stands somewhere. -/
theorem witness_OnlyInSuspends :
    (boot 0 [21]).Ready ∧ nextIs (step (boot 0 [21])) (fun _ => true) = true ∧
    (boot 0 [20, 32768]).Ready ∧ step (boot 0 [20, 32768]) = .fault .awaitingInput ∧
    (withHost (boot 0 [20, 32768]) [.byte 16] []).Ready ∧
    step (withHost (boot 0 [20, 32768]) [.byte 16] []) = .fault .awaitingSnapshot :=
  ⟨ready_of _ (by decide), by decide, ready_of _ (by decide), rfl, ready_of _ (by decide), rfl⟩

theorem witness_FaultsArePrecise :
    (boot 5 [18]).Ready ∧ nextIs (step (boot 5 [18])) (fun t => t.run == .faulted .stackUnderflow) = true := by
  unfold State.Ready; decide

theorem witness_ExecuteFaultsAreListed :
    (Instr.mod (.reg 0) (.lit 7) (.lit 0)).wellFormed = true ∧ half.run = .running ∧
    nextIs (exec (.mod (.reg 0) (.lit 7) (.lit 0)) half) (fun t => t.run == .faulted .divideByZero) = true := by decide

/-- TerminalUntilReset, its three clauses. -/
theorem witness_TerminalUntilReset :
    ({ State.reset with run := .halted } : State).env.resetRequest = none ∧
    ({ State.reset with run := .faulted .inputEnd } : State).env.resetRequest = none ∧
    (withReset { State.reset with run := .halted } []).run ≠ .running ∧
    nextIs (step (withReset { State.reset with run := .halted } [])) (fun t => t.run == .running) = true := by decide

/-- PortTrafficOfAStep: a step with no traffic, an OUT, an IN and an IN that saves. -/
theorem witness_PortTrafficOfAStep :
    nextIs (step (boot 0 [21])) (fun t => t.env.events == []) = true ∧
    nextIs (step (boot 0 [19, 65])) (fun t => t.env.events == [.emit 65]) = true ∧
    nextIs (step (withHost (boot 0 [20, 32768]) [.byte 1] [])) (fun t => t.env.events == [.input (.byte 1)]) = true ∧
    saving.Ready ∧ nextIs (step saving) (fun t => t.env.events.length == 2) = true := by
  unfold State.Ready; decide

/-- PcBeyondRegion, its three cases. -/
theorem witness_PcBeyondRegion :
    (boot 40000 []).Ready ∧ nextIs (step (boot 40000 [])) (fun t => t.pc == 40000) = true ∧
    (boot 32764 [9, 32768, 1, 1]).Ready ∧ nextIs (step (boot 32764 [9, 32768, 1, 1])) (fun t => t.pc == 32768) = true ∧
    (withStack (boot 0 [18]) [32769]).Ready ∧
    nextIs (step (withStack (boot 0 [18]) [32769])) (fun t => t.pc == 32769) = true := by
  unfold State.Ready; decide

theorem witness_StepKeepsInvariant :
    (boot 0 [2, 5]).Inv ∧ nextIs (step (boot 0 [2, 5])) (fun t => t.stk.read 0 == 5) = true :=
  ⟨inv_of _ (by decide), by decide⟩

/-- A record whose register and sp words are the largest valid ones. -/
def validRecord : Memory := [(0, 21), (32775, 32767), (32776, 40000), (65534, 32758), (65535, 65535)]

theorem witness_ResetLoadsRecord :
    (withReset half []).env.resetRequest = some [] ∧
    (withReset State.reset validRecord).env.resetRequest = some validRecord ∧
    (∀ r : RegIdx, (validRecord.read (32768 + r.val)).toNat ≤ 32767) ∧
    (validRecord.read (65536 - 2)).toNat ≤ 65536 - 32776 - 2 := by decide

/-- InvalidRecordFaults: a record with an invalid register word, and one with an invalid sp word, each just above its bound. -/
theorem witness_InvalidRecordFaults :
    (withReset State.reset [(32775, 32768)]).env.resetRequest = some [(32775, 32768)] ∧
    32767 < (Memory.read [(32775, 32768)] (32768 + (7 : RegIdx).val)).toNat ∧
    (withReset State.reset [(65534, 32759)]).env.resetRequest = some [(65534, 32759)] ∧
    65536 - 32776 - 2 < (Memory.read [(65534, 32759)] (65536 - 2)).toNat := by decide

theorem witness_FreshImageReset :
    32778 ≤ (withReset half (Memory.place [] 0 [19, 65, 0])).memSize ∧ [(19 : CodeWord), 65, 0].length ≤ 32768 ∧
    (withReset half (Memory.place [] 0 [19, 65, 0])).env.resetRequest = some (Memory.place [] 0 [19, 65, 0]) := by decide

/-- The record that `saving` hands over, and a block of the same MEM_SIZE that is reset from it. -/
def savedRecord : Memory := [(0, 20), (1, 32768), (32768, 16), (65535, 2)]

theorem witness_ResumeFromSnapshot :
    saving.Inv ∧ saving.sp < 65536 ∧ saving.env.input = .byte 16 :: [] ∧ saving.env.snapshotAnswers = .ok :: [] ∧
    exec (.inp (.reg 0)) saving = .next (nextOf (exec (.inp (.reg 0)) saving) saving) ∧
    (nextOf (exec (.inp (.reg 0)) saving) saving).env.events = [.input (.byte 16)] ++ [.snapshot savedRecord .ok] ∧
    (withReset (boot 7 [99]) savedRecord).memSize = saving.memSize ∧
    (withReset (boot 7 [99]) savedRecord).env.resetRequest = some savedRecord :=
  ⟨saving_inv, by decide, by decide, by decide, rfl, by decide, by decide, by decide⟩

theorem witness_CallThenRetResumes :
    half.Inv ∧ half.pc.toNat ≤ 32767 ∧ Denotes half (.lit 40) 40 ∧ half.sp < half.cap :=
  ⟨half_inv, by decide, .lit _, by decide⟩

theorem witness_PushesThenPopsRestore :
    State.reset.Inv ∧ State.reset.sp + [(0 : RegIdx), 1, 7].length ≤ State.reset.cap := ⟨inv_of _ (by decide), by decide⟩

/-- WmemSeenByNextFetch, its two clauses: 22 and 0 stored to the word after the WMEM. -/
theorem witness_WmemSeenByNextFetch :
    (boot 0 [16, 3, 22]).Inv ∧ (boot 0 [16, 3, 22]).Ready ∧ Denotes (boot 0 [16, 3, 22]) (.lit 3) 3 ∧
    Denotes (boot 0 [16, 3, 22]) (.lit 22) 22 ∧ (boot 0 [16, 3, 22]).pc.toNat + 3 = (3 : Value).toNat ∧
    22 ≤ (22 : Value).toNat ∧ Denotes (boot 0 [16, 3, 22]) (.reg 0) 0 ∧ (0 : Value).toNat = 0 :=
  ⟨inv_of _ (by decide), ready_of _ (by decide), .lit _, .lit _, by decide, by decide, .reg 0, by decide⟩

/-- StatusTellsOutcomes: a state in each of its cases. -/
theorem witness_StatusTellsOutcomes :
    [RunState.running, .halted, .faulted .stackUnderflow, .faulted .inputError, .faulted .snapshotError, .faulted .inputEnd,
      .faulted .illegalOpcode, .faulted .invalidOperand, .faulted .invalidDestination, .faulted .pcOutOfRange,
      .faulted .divideByZero, .faulted .stackOverflow, .faulted .valueOutOfRange, .faulted .resetInvalid].map
        (fun r => (State.reset.setRun r).status) =
      [(0, 0), (1, 0), (2, 1), (2, 2), (2, 3), (2, 4), (2, 5), (2, 6), (2, 7), (2, 8), (2, 9), (2, 10), (2, 11), (2, 12)] := by
  decide

theorem witness_PlacedWordsRunNext :
    Memory.wf 32768 full.code ∧ decodeTableWord 32 (19 + 65 * 65536) = some (.out (.lit 65)) ∧
    (Instr.out (.lit 65)).wellFormed = true := by decide

end Sys2Proof.Tests
end

section
/-! PROOFS. What a step can do to the state, said once (`step_next_cases`): a reset, a fault entry that touches only the
host's side and `run`, or a completed instruction whose stores stay in their ranges. The invariant and the precision of
faults follow from it. -/

namespace Sys2Proof.Machine

/-! ### The two ways an instruction ends -/

/-- t is the fault entry of R114 on s, with the host's side moved on and a pending reset left alone. -/
def TakesFault (s t : State) : Prop :=
  ∃ (e : Env) (c : Cause), e.resetRequest = s.env.resetRequest ∧ t = (s.setEnv e).takeFault c

/-- The stack stores nothing and sp does not rise, or one word goes into slot sp of a stack that is not full. -/
def MovesStack (s t : State) : Prop :=
  (t.stk = s.stk ∧ t.sp ≤ s.sp) ∨ (s.sp ≠ s.cap ∧ ∃ w, t.stk = s.stk.write s.sp w ∧ t.sp = s.sp + 1)

/-- CODE is kept, or one value is stored at one code address. -/
def MovesCode (s t : State) : Prop :=
  t.code = s.code ∨ ∃ a v : Value, t.code = s.code.write a.toNat (v.setWidth 16)

/-- What every instruction that commits keeps or moves, registers, pc and the streams aside. -/
structure Completes (s t : State) : Prop where
  memSize_eq : t.memSize = s.memSize
  code : MovesCode s t
  stack : MovesStack s t
  run : t.run = s.run ∨ t.run = .halted
  request_eq : t.env.resetRequest = s.env.resetRequest

/-- A meaning's next state, if it gives one, commits the instruction or enters a fault (R10). -/
def CommitsOrFaults (s : State) : Result → Prop
  | .next t => Completes s t ∨ TakesFault s t
  | .fault _ => True
  | .refused _ => True

/-! ### One rule per state operation -/

namespace Completes

variable {s t : State}

theorem refl (s : State) : Completes s s := ⟨rfl, .inl rfl, .inl ⟨rfl, le_rfl⟩, .inl rfl, rfl⟩

theorem setReg (h : Completes s t) (r : RegIdx) (v : Value) : Completes s (t.setReg r v) := { h with }

theorem setPc (h : Completes s t) (p : CodeWord) : Completes s (t.setPc p) := { h with }

theorem advance (h : Completes s t) (n : Nat) : Completes s (t.advance n) := h.setPc _

theorem jump (h : Completes s t) (v : Value) : Completes s (t.jump v) := h.setPc _

theorem setEnv (h : Completes s t) {e : Env} (he : e.resetRequest = s.env.resetRequest) : Completes s (t.setEnv e) :=
  { h with request_eq := he }

theorem emit (h : Completes s t) (b : Byte) : Completes s (t.emit b) := { h with }

theorem halt (s : State) : Completes s (s.setRun .halted) := { refl s with run := .inr rfl }

theorem memWrite (s : State) (a v : Value) : Completes s (s.memWrite a v) := { refl s with code := .inr ⟨a, v, rfl⟩ }

theorem push {s : State} (h : s.sp ≠ s.cap) (w : CodeWord) :
    Completes s ((s.stackWrite s.sp w).setSp (s.sp + 1)) :=
  { refl s with stack := .inr ⟨h, w, rfl, rfl⟩ }

theorem pop (s : State) : Completes s (s.setSp (s.sp - 1)) := { refl s with stack := .inl ⟨rfl, Nat.sub_le _ _⟩ }

/-- The ports may move on before the instruction completes. -/
theorem of_setEnv {e : Env} (he : e.resetRequest = s.env.resetRequest) (h : Completes (s.setEnv e) t) : Completes s t :=
  { h with request_eq := h.request_eq.trans he }

end Completes

theorem commitsOrFaults_takeFault (s : State) (c : Cause) : CommitsOrFaults s (.next (s.takeFault c)) :=
  .inr ⟨s.env, c, rfl, rfl⟩

theorem commitsOrFaults_setEnv_takeFault {s : State} {e : Env} (he : e.resetRequest = s.env.resetRequest) (c : Cause) :
    CommitsOrFaults s (.next ((s.setEnv e).takeFault c)) :=
  .inr ⟨e, c, he, rfl⟩

/-- The ports may move on before the instruction ends. -/
theorem CommitsOrFaults.of_setEnv {s : State} {e : Env} {r : Result} (he : e.resetRequest = s.env.resetRequest)
    (h : CommitsOrFaults (s.setEnv e) r) : CommitsOrFaults s r := by
  cases r with
  | next t =>
    rcases h with h | ⟨e', c, he', rfl⟩
    · exact .inl (h.of_setEnv he)
    · exact commitsOrFaults_setEnv_takeFault (he'.trans he) c
  | fault f => trivial
  | refused f => trivial

/-! ### Each instruction commits or enters a fault -/

theorem compute2_commitsOrFaults (f : Value → Value → Except Cause Value) (d a b : Operand) (s : State) :
    CommitsOrFaults s (compute2 f d a b s) := by
  rcases compute2_cases f d a b s with ⟨r, x, y, z, -, -, -, -, e⟩ | ⟨c, e, -⟩ <;> rw [e]
  · exact .inl (((Completes.refl s).setReg r z).advance 4)
  · exact commitsOrFaults_takeFault s c

theorem compute1_commitsOrFaults (f : Value → Value) (d a : Operand) (s : State) :
    CommitsOrFaults s (compute1 f d a s) := by
  rcases compute1_cases f d a s with ⟨r, x, -, -, e⟩ | ⟨c, e, -⟩ <;> rw [e]
  · exact .inl (((Completes.refl s).setReg r _).advance 3)
  · exact commitsOrFaults_takeFault s c

theorem execSet_commitsOrFaults (d v : Operand) (s : State) : CommitsOrFaults s (execSet d v s) := by
  rcases execSet_cases d v s with ⟨r, x, -, -, e⟩ | ⟨c, e, -⟩ <;> rw [e]
  · exact .inl (((Completes.refl s).setReg r x).advance 3)
  · exact commitsOrFaults_takeFault s c

theorem execPush_commitsOrFaults (v : Operand) (s : State) : CommitsOrFaults s (execPush v s) := by
  rcases execPush_cases v s with ⟨x, -, hsp, e⟩ | ⟨x, -, -, e⟩ | ⟨c, e, -⟩ <;> rw [e]
  · exact .inl ((Completes.push hsp _).advance 2)
  · exact commitsOrFaults_takeFault s _
  · exact commitsOrFaults_takeFault s c

theorem execPop_commitsOrFaults (d : Operand) (s : State) : CommitsOrFaults s (execPop d s) := by
  rcases execPop_cases d s with ⟨r, -, -, -, e⟩ | ⟨r, -, -, e⟩ | ⟨r, -, -, -, e⟩ | ⟨c, e, -⟩ <;> rw [e]
  · exact .inl (((Completes.pop s).setReg r _).advance 2)
  · exact commitsOrFaults_takeFault s _
  · exact commitsOrFaults_takeFault s _
  · exact commitsOrFaults_takeFault s c

theorem execJmp_commitsOrFaults (a : Operand) (s : State) : CommitsOrFaults s (execJmp a s) := by
  rcases execJmp_cases a s with ⟨t, -, e⟩ | ⟨c, e, -⟩ <;> rw [e]
  · exact .inl ((Completes.refl s).jump t)
  · exact commitsOrFaults_takeFault s c

theorem execJt_commitsOrFaults (c a : Operand) (s : State) : CommitsOrFaults s (execJt c a s) := by
  rcases execJt_cases c a s with ⟨x, t, -, -, e⟩ | ⟨f, e, -⟩ <;> rw [e]
  · split
    · exact .inl ((Completes.refl s).jump t)
    · exact .inl ((Completes.refl s).advance 3)
  · exact commitsOrFaults_takeFault s f

theorem execJf_commitsOrFaults (c a : Operand) (s : State) : CommitsOrFaults s (execJf c a s) := by
  rcases execJf_cases c a s with ⟨x, t, -, -, e⟩ | ⟨f, e, -⟩ <;> rw [e]
  · split
    · exact .inl ((Completes.refl s).advance 3)
    · exact .inl ((Completes.refl s).jump t)
  · exact commitsOrFaults_takeFault s f

theorem execCall_commitsOrFaults (a : Operand) (s : State) : CommitsOrFaults s (execCall a s) := by
  rcases execCall_cases a s with ⟨t, -, hsp, e⟩ | ⟨t, -, -, e⟩ | ⟨c, e, -⟩ <;> rw [e]
  · exact .inl ((Completes.push hsp _).jump t)
  · exact commitsOrFaults_takeFault s _
  · exact commitsOrFaults_takeFault s c

theorem execRet_commitsOrFaults (s : State) : CommitsOrFaults s (execRet s) := by
  rcases execRet_cases s with ⟨-, e⟩ | ⟨-, e⟩ <;> rw [e]
  · exact .inl ((Completes.pop s).setPc _)
  · exact commitsOrFaults_takeFault s _

theorem execRmem_commitsOrFaults (d a : Operand) (s : State) : CommitsOrFaults s (execRmem d a s) := by
  rcases execRmem_cases d a s with ⟨r, x, -, -, -, e⟩ | ⟨r, x, -, -, -, e⟩ | ⟨c, e, -⟩ <;> rw [e]
  · exact .inl (((Completes.refl s).setReg r _).advance 3)
  · exact commitsOrFaults_takeFault s _
  · exact commitsOrFaults_takeFault s c

theorem execWmem_commitsOrFaults (a v : Operand) (s : State) : CommitsOrFaults s (execWmem a v s) := by
  rcases execWmem_cases a v s with ⟨x, y, -, -, e⟩ | ⟨c, e, -⟩ <;> rw [e]
  · exact .inl ((Completes.memWrite s x y).advance 3)
  · exact commitsOrFaults_takeFault s c

theorem execOut_commitsOrFaults (v : Operand) (s : State) : CommitsOrFaults s (execOut v s) := by
  rcases execOut_cases v s with ⟨x, -, e⟩ | ⟨c, e, -⟩ <;> rw [e]
  · exact .inl (((Completes.refl s).emit _).advance 2)
  · exact commitsOrFaults_takeFault s c

/-- A snapshot request of a state that would complete commits it or enters SnapshotError (R104, R107). -/
theorem snapshot_commitsOrFaults {s t : State} (h : Completes s t) : CommitsOrFaults s (s.snapshot t) := by
  rcases snapshot_cases s t with ⟨-, e⟩ | ⟨rest, -, e⟩ | ⟨rest, -, e⟩ <;> rw [e]
  · trivial
  · exact .inl (h.setEnv rfl)
  · exact commitsOrFaults_setEnv_takeFault (by rfl) _

theorem deliverByte_commitsOrFaults (r : RegIdx) (b : Byte) (s : State) : CommitsOrFaults s (deliverByte r b s) := by
  have h : Completes s ((s.setReg r (b.setWidth 15)).advance 2) := ((Completes.refl s).setReg r _).advance 2
  rw [deliverByte_eq]
  split
  · exact snapshot_commitsOrFaults h
  · exact .inl h

theorem consumed_resetRequest (s : State) (a : InputAnswer) (rest : List InputAnswer) :
    (consumed s a rest).resetRequest = s.env.resetRequest := rfl

theorem execInp_commitsOrFaults (d : Operand) (s : State) : CommitsOrFaults s (execInp d s) := by
  rcases execInp_cases d s with ⟨r, -, -, e⟩ | ⟨r, rest, -, -, e⟩ | ⟨r, rest, -, -, e⟩ | ⟨r, b, rest, -, -, e⟩ | ⟨e, -⟩ <;>
    rw [e]
  · trivial
  · exact commitsOrFaults_setEnv_takeFault (consumed_resetRequest s _ rest) _
  · exact commitsOrFaults_setEnv_takeFault (consumed_resetRequest s _ rest) _
  · exact (deliverByte_commitsOrFaults r b _).of_setEnv (consumed_resetRequest s _ rest)
  · exact commitsOrFaults_takeFault s _

theorem exec_commitsOrFaults (i : Instr) (s : State) : CommitsOrFaults s (exec i s) := by
  cases i with
  | halt => exact .inl (.halt s)
  | set d v => exact execSet_commitsOrFaults d v s
  | push v => exact execPush_commitsOrFaults v s
  | pop d => exact execPop_commitsOrFaults d s
  | eq d a b => exact compute2_commitsOrFaults _ d a b s
  | gt d a b => exact compute2_commitsOrFaults _ d a b s
  | jmp a => exact execJmp_commitsOrFaults a s
  | jt c a => exact execJt_commitsOrFaults c a s
  | jf c a => exact execJf_commitsOrFaults c a s
  | add d a b => exact compute2_commitsOrFaults _ d a b s
  | mult d a b => exact compute2_commitsOrFaults _ d a b s
  | mod d a b => exact compute2_commitsOrFaults _ d a b s
  | and d a b => exact compute2_commitsOrFaults _ d a b s
  | or d a b => exact compute2_commitsOrFaults _ d a b s
  | not d a => exact compute1_commitsOrFaults _ d a s
  | rmem d a => exact execRmem_commitsOrFaults d a s
  | wmem a v => exact execWmem_commitsOrFaults a v s
  | call a => exact execCall_commitsOrFaults a s
  | ret => exact execRet_commitsOrFaults s
  | out v => exact execOut_commitsOrFaults v s
  | inp d => exact execInp_commitsOrFaults d s
  | noop => exact .inl ((Completes.refl s).advance 1)

/-! ### What a step can do -/

/-- A Ready step completes an instruction or enters a fault, of Decode or of the instruction. -/
theorem step_commitsOrFaults {s : State} (h : s.Ready) : CommitsOrFaults s (step s) := by
  rcases step_ready_cases h with ⟨c, -, e⟩ | ⟨i, -, e⟩ <;> rw [e]
  · exact commitsOrFaults_takeFault s c
  · exact exec_commitsOrFaults i s

theorem ready_step_next_cases {s t : State} (h : s.Ready) (hst : step s = .next t) :
    Completes s t ∨ TakesFault s t := by
  have := step_commitsOrFaults h
  rwa [hst] at this

/-- A step that gives a next state takes the pending reset, or is that of a Ready block. -/
theorem step_next_cases {s t : State} (hst : step s = .next t) :
    (∃ L, s.env.resetRequest = some L ∧ t = s.resetFrom L) ∨ (s.Ready ∧ (Completes s t ∨ TakesFault s t)) := by
  cases hq : s.env.resetRequest with
  | some L =>
    rw [step_of_request hq] at hst
    cases hst
    exact .inl ⟨L, rfl, rfl⟩
  | none =>
    cases hr : s.run with
    | running => exact .inr ⟨⟨hr, hq⟩, ready_step_next_cases ⟨hr, hq⟩ hst⟩
    | halted => rw [step_of_halted hq hr] at hst; cases hst
    | faulted c => rw [step_of_faulted hq hr] at hst; cases hst

/-! ### The invariant -/

namespace Memory

theorem wf_nil (size : Nat) : Memory.wf size [] := ⟨.nil, by simp⟩

end Memory

/-- The sp word above STACK_CAPACITY is not loaded (R121). -/
theorem resetFrom_sp_le (s : State) (L : Memory) : (s.resetFrom L).sp ≤ s.cap := by
  rw [State.resetFrom]
  split
  · assumption
  · exact Nat.zero_le _

/-- A reset from a canonical record gives a legal state, whether or not the record is valid (R120, R121). -/
theorem inv_resetFrom {s : State} {L : Memory} (h : s.Inv) (hL : Memory.wf s.memSize L) : (s.resetFrom L).Inv where
  memSize_ge := h.memSize_ge
  code_wf := wf_resetFrom_code hL
  stk_wf := wf_resetFrom_stk hL
  sp_le := resetFrom_sp_le s L
  request_wf := fun _ hq => nomatch hq

theorem TakesFault.memSize_eq {s t : State} (hf : TakesFault s t) : t.memSize = s.memSize := by
  obtain ⟨e, c, -, rfl⟩ := hf
  rfl

/-- A fault entry keeps every store, sp and the request. -/
theorem TakesFault.inv {s t : State} (h : s.Inv) (hf : TakesFault s t) : t.Inv := by
  obtain ⟨e, c, he, rfl⟩ := hf
  exact ⟨h.memSize_ge, h.code_wf, h.stk_wf, h.sp_le, fun L hq => h.request_wf L (he.symm.trans hq)⟩

/-- A resolved address lies in the code region (R34). -/
theorem MovesCode.wf {s t : State} (h : Memory.wf Config.codeSize s.code) (hm : MovesCode s t) :
    Memory.wf Config.codeSize t.code := by
  rcases hm with e | ⟨a, v, e⟩ <;> rw [e]
  · exact h
  · exact Memory.wf_write h a.isLt

/-- A push into a stack that is not full stores below STACK_CAPACITY (R71). -/
theorem MovesStack.wf {s t : State} (h : Memory.wf s.cap s.stk) (hsp : s.sp ≤ s.cap) (hm : MovesStack s t) :
    Memory.wf s.cap t.stk ∧ t.sp ≤ s.cap := by
  rcases hm with ⟨estk, hle⟩ | ⟨hne, w, estk, esp⟩ <;> rw [estk]
  · exact ⟨h, hle.trans hsp⟩
  · have hlt : s.sp < s.cap := lt_of_le_of_ne hsp hne
    exact ⟨Memory.wf_write h hlt, esp ▸ hlt⟩

theorem Completes.inv {s t : State} (h : s.Inv) (hc : Completes s t) : t.Inv := by
  have hcap : t.cap = s.cap := congrArg Config.stackCapacity hc.memSize_eq
  obtain ⟨hstk, hsp⟩ := hc.stack.wf h.stk_wf h.sp_le
  constructor
  case memSize_ge => exact hc.memSize_eq ▸ h.memSize_ge
  case code_wf => exact hc.code.wf h.code_wf
  case stk_wf => rwa [hcap]
  case sp_le => rwa [hcap]
  case request_wf =>
    intro L hq
    rw [hc.memSize_eq]
    exact h.request_wf L (hc.request_eq.symm.trans hq)

/-- Settles O48: a reset, a completed instruction and a fault entry each keep the invariant. -/
theorem stepKeepsInvariant : Obligations.StepKeepsInvariant := by
  intro s t h hst
  rcases step_next_cases hst with ⟨L, hq, rfl⟩ | ⟨-, hc | hf⟩
  · exact ⟨inv_resetFrom h (h.request_wf L hq), rfl⟩
  · exact ⟨hc.inv h, hc.memSize_eq⟩
  · exact ⟨hf.inv h, hf.memSize_eq⟩

/-- Settles O43: a completed instruction leaves a Running block Running or Halted, so the step was a fault entry. -/
theorem faultsArePrecise : Obligations.FaultsArePrecise := by
  intro s t c hs hst hrun
  rcases ready_step_next_cases hs hst with hc | ⟨e, c', -, rfl⟩
  · rcases hc.run with hr | hr
    · rw [hrun, hs.1] at hr; cases hr
    · rw [hrun] at hr; cases hr
  · cases hrun
    rfl

/-- Settles O49: the stores of State.reset are empty, and every other clause is about its literal fields. -/
theorem resetMeetsInvariant : Obligations.ResetMeetsInvariant where
  left := {
    memSize_ge := by decide
    code_wf := Memory.wf_nil _
    stk_wf := Memory.wf_nil _
    sp_le := Nat.zero_le _
    request_wf := fun _ hq => nomatch hq }
  right := ⟨rfl, rfl⟩

end Sys2Proof.Machine
end

section
/-! PROOFS. What an instruction can answer, said once (`ExecAnswers`, `exec_answers`): one constructor for each way to
complete, one for each kind of fault entry, one for each wait. The frames of 10_state.md and the rules about who writes
registers, stack, CODE and pc follow from it by cases. -/

namespace Sys2Proof.Machine

/-! ### Every answer of an instruction -/

/-- i computes a value into its destination d and does nothing else: it has a destination and is neither POP nor IN. -/
def ComputesInto (i : Instr) (d : Operand) : Prop :=
  destinationOf i = some d ∧ (∀ o, i ≠ .pop o) ∧ ∀ o, i ≠ .inp o

/-- What exec of an instruction in s can answer. A fault entry leaves the host's side alone, except in IN. -/
inductive ExecAnswers (s : State) : Instr → Result → Prop
  | halt : ExecAnswers s .halt (.next (s.setRun .halted))
  | compute {i : Instr} {r : RegIdx} (v : Value) (hi : ComputesInto i (.reg r)) :
      ExecAnswers s i (.next ((s.setReg r v).advance i.length))
  | push (o : Operand) (w : CodeWord) :
      ExecAnswers s (.push o) (.next (((s.stackWrite s.sp w).setSp (s.sp + 1)).advance 2))
  | pop (r : RegIdx) (v : Value) :
      ExecAnswers s (.pop (.reg r)) (.next (((s.setSp (s.sp - 1)).setReg r v).advance 2))
  | call (o : Operand) (w : CodeWord) (x : Value) :
      ExecAnswers s (.call o) (.next (((s.stackWrite s.sp w).setSp (s.sp + 1)).jump x))
  | ret (hsp : s.sp ≠ 0) :
      ExecAnswers s .ret (.next ((s.setSp (s.sp - 1)).setPc (s.stk.read (s.sp - 1))))
  | jmp (o : Operand) (x : Value) : ExecAnswers s (.jmp o) (.next (s.jump x))
  | jt (c o : Operand) (x : Value) : ExecAnswers s (.jt c o) (.next (s.jump x))
  | jtPasses (c o : Operand) : ExecAnswers s (.jt c o) (.next (s.advance 3))
  | jf (c o : Operand) (x : Value) : ExecAnswers s (.jf c o) (.next (s.jump x))
  | jfPasses (c o : Operand) : ExecAnswers s (.jf c o) (.next (s.advance 3))
  | wmem (a o : Operand) (x y : Value) : ExecAnswers s (.wmem a o) (.next ((s.memWrite x y).advance 3))
  | out (o : Operand) (b : Byte) : ExecAnswers s (.out o) (.next ((s.emit b).advance 2))
  | inp (r : RegIdx) (v : Value) (e : Env) (he : e.resetRequest = s.env.resetRequest) :
      ExecAnswers s (.inp (.reg r)) (.next (((s.setReg r v).advance 2).setEnv e))
  | noop : ExecAnswers s .noop (.next (s.advance 1))
  | faults {i : Instr} (c : Cause) : ExecAnswers s i (.next (s.takeFault c))
  | inpFaults (d : Operand) (e : Env) (c : Cause) (he : e.resetRequest = s.env.resetRequest) :
      ExecAnswers s (.inp d) (.next ((s.setEnv e).takeFault c))
  | awaitsInput (d : Operand) (hin : s.env.input = []) : ExecAnswers s (.inp d) (.fault .awaitingInput)
  | awaitsSnapshot (d : Operand) (rest : List InputAnswer) (hin : s.env.input = .byte 16 :: rest)
      (hans : s.env.snapshotAnswers = []) : ExecAnswers s (.inp d) (.fault .awaitingSnapshot)

section
variable {s : State} {i : Instr}

theorem compute2_answers {f : Value → Value → Except Cause Value} {d a b : Operand} (hi : ComputesInto i d)
    (hl : i.length = 4) : ExecAnswers s i (compute2 f d a b s) := by
  rcases compute2_cases f d a b s with ⟨r, x, y, z, rfl, -, -, -, e⟩ | ⟨c, e, -⟩ <;> rw [e]
  · rw [← hl]
    exact .compute z hi
  · exact .faults c

theorem compute1_answers {f : Value → Value} {d a : Operand} (hi : ComputesInto i d) (hl : i.length = 3) :
    ExecAnswers s i (compute1 f d a s) := by
  rcases compute1_cases f d a s with ⟨r, x, rfl, -, e⟩ | ⟨c, e, -⟩ <;> rw [e]
  · rw [← hl]
    exact .compute _ hi
  · exact .faults c

theorem execSet_answers (d o : Operand) : ExecAnswers s (.set d o) (execSet d o s) := by
  rcases execSet_cases d o s with ⟨r, x, rfl, -, e⟩ | ⟨c, e, -⟩ <;> rw [e]
  · exact .compute x ⟨rfl, nofun, nofun⟩
  · exact .faults c

theorem execRmem_answers (d a : Operand) : ExecAnswers s (.rmem d a) (execRmem d a s) := by
  rcases execRmem_cases d a s with ⟨r, x, rfl, -, -, e⟩ | ⟨r, x, rfl, -, -, e⟩ | ⟨c, e, -⟩ <;> rw [e]
  · exact .compute _ ⟨rfl, nofun, nofun⟩
  · exact .faults _
  · exact .faults c

theorem execPush_answers (o : Operand) : ExecAnswers s (.push o) (execPush o s) := by
  rcases execPush_cases o s with ⟨x, -, -, e⟩ | ⟨x, -, -, e⟩ | ⟨c, e, -⟩ <;> rw [e]
  · exact .push o _
  · exact .faults _
  · exact .faults c

theorem execPop_answers (d : Operand) : ExecAnswers s (.pop d) (execPop d s) := by
  rcases execPop_cases d s with ⟨r, rfl, -, -, e⟩ | ⟨r, rfl, -, e⟩ | ⟨r, rfl, -, -, e⟩ | ⟨c, e, -⟩ <;> rw [e]
  · exact .pop r _
  · exact .faults _
  · exact .faults _
  · exact .faults c

theorem execJmp_answers (o : Operand) : ExecAnswers s (.jmp o) (execJmp o s) := by
  rcases execJmp_cases o s with ⟨x, -, e⟩ | ⟨c, e, -⟩ <;> rw [e]
  · exact .jmp o x
  · exact .faults c

theorem execJt_answers (c o : Operand) : ExecAnswers s (.jt c o) (execJt c o s) := by
  rcases execJt_cases c o s with ⟨x, y, -, -, e⟩ | ⟨f, e, -⟩ <;> rw [e]
  · split
    · exact .jt c o y
    · exact .jtPasses c o
  · exact .faults f

theorem execJf_answers (c o : Operand) : ExecAnswers s (.jf c o) (execJf c o s) := by
  rcases execJf_cases c o s with ⟨x, y, -, -, e⟩ | ⟨f, e, -⟩ <;> rw [e]
  · split
    · exact .jfPasses c o
    · exact .jf c o y
  · exact .faults f

theorem execCall_answers (o : Operand) : ExecAnswers s (.call o) (execCall o s) := by
  rcases execCall_cases o s with ⟨x, -, -, e⟩ | ⟨x, -, -, e⟩ | ⟨c, e, -⟩ <;> rw [e]
  · exact .call o _ x
  · exact .faults _
  · exact .faults c

theorem execRet_answers : ExecAnswers s .ret (execRet s) := by
  rcases execRet_cases s with ⟨hsp, e⟩ | ⟨-, e⟩ <;> rw [e]
  · exact .ret hsp
  · exact .faults _

theorem execWmem_answers (a o : Operand) : ExecAnswers s (.wmem a o) (execWmem a o s) := by
  rcases execWmem_cases a o s with ⟨x, y, -, -, e⟩ | ⟨c, e, -⟩ <;> rw [e]
  · exact .wmem a o x y
  · exact .faults c

theorem execOut_answers (o : Operand) : ExecAnswers s (.out o) (execOut o s) := by
  rcases execOut_cases o s with ⟨x, -, e⟩ | ⟨c, e, -⟩ <;> rw [e]
  · exact .out o _
  · exact .faults c

/-- The end of an IN that has consumed a byte: only the save trigger can make it wait or fault. -/
theorem deliverByte_answers (r : RegIdx) {b : Byte} {rest : List InputAnswer} (hin : s.env.input = .byte b :: rest) :
    ExecAnswers s (.inp (.reg r)) (deliverByte r b (s.setEnv (consumed s (.byte b) rest))) := by
  rw [deliverByte_eq]
  split
  case isTrue hb =>
    subst hb
    rcases snapshot_cases (s.setEnv (consumed s (.byte Config.saveTrigger) rest)) _ with
      ⟨hans, e⟩ | ⟨answers, -, e⟩ | ⟨answers, -, e⟩ <;> rw [e]
    · exact .awaitsSnapshot _ rest hin hans
    · exact .inp r _ _ rfl
    · exact .inpFaults _ _ _ rfl
  case isFalse => exact .inp r _ _ rfl

theorem execInp_answers (d : Operand) : ExecAnswers s (.inp d) (execInp d s) := by
  rcases execInp_cases d s with
    ⟨r, -, hin, e⟩ | ⟨r, rest, -, -, e⟩ | ⟨r, rest, -, -, e⟩ | ⟨r, b, rest, rfl, hin, e⟩ | ⟨e, -⟩ <;> rw [e]
  · exact .awaitsInput d hin
  · exact .inpFaults d _ _ (consumed_resetRequest s _ rest)
  · exact .inpFaults d _ _ (consumed_resetRequest s _ rest)
  · exact deliverByte_answers r hin
  · exact .faults _

end

/-- Every answer of exec is one of those listed. -/
theorem exec_answers (i : Instr) (s : State) : ExecAnswers s i (exec i s) := by
  cases i with
  | halt => exact .halt
  | set d v => exact execSet_answers d v
  | push v => exact execPush_answers v
  | pop d => exact execPop_answers d
  | eq d a b => exact compute2_answers ⟨rfl, nofun, nofun⟩ rfl
  | gt d a b => exact compute2_answers ⟨rfl, nofun, nofun⟩ rfl
  | jmp a => exact execJmp_answers a
  | jt c a => exact execJt_answers c a
  | jf c a => exact execJf_answers c a
  | add d a b => exact compute2_answers ⟨rfl, nofun, nofun⟩ rfl
  | mult d a b => exact compute2_answers ⟨rfl, nofun, nofun⟩ rfl
  | mod d a b => exact compute2_answers ⟨rfl, nofun, nofun⟩ rfl
  | and d a b => exact compute2_answers ⟨rfl, nofun, nofun⟩ rfl
  | or d a b => exact compute2_answers ⟨rfl, nofun, nofun⟩ rfl
  | not d a => exact compute1_answers ⟨rfl, nofun, nofun⟩ rfl
  | rmem d a => exact execRmem_answers d a
  | wmem a v => exact execWmem_answers a v
  | call a => exact execCall_answers a
  | ret => exact execRet_answers
  | out v => exact execOut_answers v
  | inp d => exact execInp_answers d
  | noop => exact .noop

theorem answers_of_exec {i : Instr} {s : State} {r : Result} (h : exec i s = r) : ExecAnswers s i r :=
  h ▸ exec_answers i s

/-! ### What an answer keeps -/

namespace ExecAnswers
variable {s t : State} {i : Instr}

/-- Only the destination register can change. -/
theorem reg_eq (h : ExecAnswers s i (.next t)) {q : RegIdx} (hq : destinationOf i ≠ some (.reg q)) :
    t.reg q = s.reg q := by
  cases h with
  | compute v hi => exact s.setReg_reg_ne _ q v fun e => hq (e ▸ hi.1)
  | pop r v => exact (s.setSp (s.sp - 1)).setReg_reg_ne r q v fun e => hq (e ▸ rfl)
  | inp r v => exact s.setReg_reg_ne r q v fun e => hq (e ▸ rfl)
  | _ => rfl

theorem sameRegsBut (h : ExecAnswers s i (.next t)) {d : Operand} (hd : destinationOf i = some d) :
    SameRegsBut d s t :=
  fun _ hq => h.reg_eq fun e => hq (Option.some.inj (hd.symm.trans e))

/-- Only the four stack instructions move sp or store into the stack (R23). -/
theorem stack_eq (h : ExecAnswers s i (.next t)) (hi : i.mnemonic ∉ [.push, .pop, .call, .ret]) :
    t.sp = s.sp ∧ t.stk = s.stk := by
  cases h with
  | push | pop | call | ret => simp [Instr.mnemonic] at hi
  | _ => exact ⟨rfl, rfl⟩

/-- Only WMEM stores into CODE, and it stores a value at a code address (R24). -/
theorem code_cases (h : ExecAnswers s i (.next t)) :
    t.code = s.code ∨ (i.mnemonic = .wmem ∧ ∃ x y : Value, t.code = s.code.write x.toNat (y.setWidth 16)) := by
  cases h with
  | wmem a o x y => exact .inr ⟨rfl, x, y, rfl⟩
  | _ => exact .inl rfl

/-- Where pc goes: HALT and a fault keep it, a linear advance adds the length, a taken transfer goes to a resolved
value, and RET to the top stack entry. -/
theorem pc_cases (h : ExecAnswers s i (.next t)) :
    (i = .halt ∧ t.pc = s.pc) ∨ (i ≠ .halt ∧ t.pc = s.pc + BitVec.ofNat 16 i.length) ∨
      (transfersControl i = true ∧ t.pc.toNat < 32768) ∨
      (i = .ret ∧ s.sp ≠ 0 ∧ t.pc = s.stk.read (s.sp - 1)) ∨ ∃ c, t.run = .faulted c ∧ t.pc = s.pc := by
  have value_lt (x : Value) : (x.setWidth 16).toNat < 32768 := by
    rw [BitVec.toNat_setWidth]
    omega
  cases h with
  | halt => exact .inl ⟨rfl, rfl⟩
  | compute v hi => exact .inr (.inl ⟨fun e => by simp [e, ComputesInto, destinationOf] at hi, rfl⟩)
  | push | pop | jtPasses | jfPasses | wmem | out | inp | noop => exact .inr (.inl ⟨nofun, rfl⟩)
  | call o w x => exact .inr (.inr (.inl ⟨rfl, value_lt x⟩))
  | jmp o x => exact .inr (.inr (.inl ⟨rfl, value_lt x⟩))
  | jt c o x => exact .inr (.inr (.inl ⟨rfl, value_lt x⟩))
  | jf c o x => exact .inr (.inr (.inl ⟨rfl, value_lt x⟩))
  | ret hsp => exact .inr (.inr (.inr (.inl ⟨rfl, hsp, rfl⟩)))
  | faults c => exact .inr (.inr (.inr (.inr ⟨c, rfl, rfl⟩)))
  | inpFaults d e c => exact .inr (.inr (.inr (.inr ⟨c, rfl, rfl⟩)))

end ExecAnswers

/-! ### Frames of the instructions -/

/-- Settles O33: a computing instruction writes its destination register and advances, or faults with the state kept. -/
theorem computingFrame : Obligations.ComputingFrame := by
  intro i d s t hd hpop hinp hexec
  have h := answers_of_exec hexec
  refine ⟨h.sameRegsBut hd, ?_⟩
  cases h with
  | compute v hi => exact ⟨rfl, fun _ => rfl, fun _ => rfl, rfl, rfl, .inl rfl⟩
  | faults c => exact ⟨rfl, fun _ => rfl, fun _ => rfl, rfl, rfl, .inr ⟨c, rfl⟩⟩
  | pop r v => exact absurd rfl (hpop _)
  | inp | inpFaults => exact absurd rfl (hinp _)
  | halt | push | call | ret | jmp | jt | jtPasses | jf | jfPasses | wmem | out | noop => cases hd

/-- Settles O34: POP lowers sp and writes its destination register, or faults with the state kept. -/
theorem popFrame : Obligations.PopFrame := by
  intro d s t hexec
  have h := answers_of_exec hexec
  refine ⟨h.sameRegsBut rfl, ?_⟩
  cases h with
  | compute v hi => exact absurd rfl (hi.2.1 _)
  | pop r v => exact ⟨.inr rfl, fun _ => rfl, fun _ => rfl, rfl, rfl, .inl rfl⟩
  | faults c => exact ⟨.inl rfl, fun _ => rfl, fun _ => rfl, rfl, rfl, .inr ⟨c, rfl⟩⟩

/-- Settles O35: PUSH and CALL store one word into slot sp and raise sp, or fault with the state kept. -/
theorem pushingFrame : Obligations.PushingFrame := by
  intro i o s t hi hexec
  have hd : destinationOf i = none := by rcases hi with rfl | rfl <;> rfl
  cases answers_of_exec hexec with
  | push o' w | call o' w =>
    exact ⟨fun _ => rfl, .inr rfl, fun j hj => Memory.read_write_ne s.stk s.sp j w hj, fun _ => rfl, rfl, rfl, .inl rfl⟩
  | faults c => exact ⟨fun _ => rfl, .inl rfl, fun _ _ => rfl, fun _ => rfl, rfl, rfl, .inr ⟨c, rfl⟩⟩
  | compute v hc => exact nomatch hd.symm.trans hc.1
  | halt | pop | ret | jmp | jt | jtPasses | jf | jfPasses | wmem | out | inp | noop | inpFaults => simp at hi

/-- Settles O36: each of them moves pc at most, apart from HALT's run, RET's sp and the byte OUT emits. -/
theorem noStoreFrame : Obligations.NoStoreFrame := by
  intro i s t hi hexec
  have hd : destinationOf i = none := by
    rcases hi with rfl | rfl | rfl | ⟨o, rfl | rfl⟩ | ⟨c, o, rfl | rfl⟩ <;> rfl
  cases answers_of_exec hexec with
  | halt => exact ⟨fun _ => rfl, fun _ => rfl, fun _ => rfl, rfl, .inl rfl, .inl rfl, .inr ⟨rfl, rfl⟩⟩
  | ret => exact ⟨fun _ => rfl, fun _ => rfl, fun _ => rfl, rfl, .inr ⟨rfl, rfl⟩, .inl rfl, .inl (.inl rfl)⟩
  | jmp | jt | jtPasses | jf | jfPasses | noop =>
    exact ⟨fun _ => rfl, fun _ => rfl, fun _ => rfl, rfl, .inl rfl, .inl rfl, .inl (.inl rfl)⟩
  | out o b =>
    exact ⟨fun _ => rfl, fun _ => rfl, fun _ => rfl, rfl, .inl rfl, .inr ⟨o, _, rfl, rfl⟩, .inl (.inl rfl)⟩
  | faults c =>
    exact ⟨fun _ => rfl, fun _ => rfl, fun _ => rfl, rfl, .inl rfl, .inl rfl, .inl (.inr ⟨c, rfl⟩)⟩
  | compute v hc => exact nomatch hd.symm.trans hc.1
  | push | pop | call | wmem | inp | inpFaults => simp at hi

/-- Settles O38: whichever way an IN ends, it stores into one register at most and leaves a reset request pending. -/
theorem inFrame : Obligations.InFrame := by
  intro d s t hexec
  have h := answers_of_exec hexec
  refine ⟨h.sameRegsBut rfl, ?_⟩
  cases h with
  | compute v hi => exact absurd rfl (hi.2.2 _)
  | inp r v e he => exact ⟨rfl, fun _ => rfl, fun _ => rfl, he, rfl, .inl rfl⟩
  | faults c => exact ⟨rfl, fun _ => rfl, fun _ => rfl, rfl, rfl, .inr ⟨c, rfl⟩⟩
  | inpFaults d e c he => exact ⟨rfl, fun _ => rfl, fun _ => rfl, he, rfl, .inr ⟨c, rfl⟩⟩

/-! ### The linear advance -/

theorem instr_length_le (i : Instr) : i.length ≤ 4 := by
  have := i.mnemonic.kinds_length_le
  rw [Instr.length]
  omega

/-- From a pc in the code region the 16-bit sum is the exact one (R19). -/
theorem advance_toNat {p : CodeWord} (hp : p.toNat ≤ 32767) (i : Instr) :
    (p + BitVec.ofNat 16 i.length).toNat = p.toNat + i.length := by
  have := instr_length_le i
  rw [BitVec.toNat_add, BitVec.toNat_ofNat]
  omega

/-- Settles O32: an instruction that neither transfers control nor faults is HALT or advances by its length. -/
theorem linearAdvanceIsExact : Obligations.LinearAdvanceIsExact := by
  intro i s t _ hpc hexec hrun
  rcases (answers_of_exec hexec).pc_cases with
    ⟨rfl, e⟩ | ⟨hne, e⟩ | ⟨htr, -⟩ | ⟨rfl, -⟩ | ⟨c, hc, -⟩
  · exact ⟨fun _ => e, fun hne => absurd rfl hne⟩
  · refine ⟨fun hi => absurd hi hne, fun _ _ => ?_⟩
    rw [e, advance_toNat hpc, Instr.length, Instr.operands_length, Nat.add_assoc]
  · exact ⟨fun hi => (by rw [hi] at htr; cases htr), fun _ hf => nomatch hf.symm.trans htr⟩
  · exact ⟨nofun, fun _ hf => nomatch hf⟩
  · exact absurd hc (hrun c)

/-! ### What a Ready step decodes and answers -/

/-- The words at pc that pass Decode lie in the code region, and the first is the instruction's opcode (R45, R53). -/
theorem decoded_at_pc {s : State} {i : Instr} (hd : decodeChecked s.fetch = .ok i) :
    s.opcodeAt = i.mnemonic.opcode.toNat ∧ s.pc.toNat + i.length ≤ 32768 := by
  obtain ⟨rest, hdec⟩ : ∃ rest, decode s.fetch = .ok (i, rest) := by
    unfold decodeChecked at hd
    split at hd
    · cases hd
    · next j rest hj =>
      split at hd <;> cases hd
      exact ⟨rest, hj⟩
  obtain ⟨os, hws, hos⟩ := decode_ok hdec
  have hpc : s.pc.toNat < 32768 := by
    by_contra hpc
    rw [State.fetch, Memory.fetch_beyond _ _ _ (by omega)] at hws
    cases hws
  constructor
  · rw [State.fetch, Memory.fetch_succ _ _ _ hpc] at hws
    exact congrArg BitVec.toNat (List.cons.inj hws).1
  · have hlen := Memory.fetch_length_le s.code 4 s.pc.toNat
    have hargs : os.length = i.mnemonic.kinds.length := by
      rw [← Instr.operands_length, ← hos, List.length_map]
    rw [← State.fetch, hws, List.length_cons, List.length_append] at hlen
    rw [Instr.length]
    omega

/-- Beyond the code region Decode finds no word (R54). -/
theorem decodeChecked_beyond {s : State} (h : 32768 ≤ s.pc.toNat) :
    decodeChecked s.fetch = .error .pcOutOfRange := by
  rw [State.fetch, Memory.fetch_beyond _ _ _ h]
  rfl

/-- The next state of a Ready step: a Decode fault, or an answer of the instruction that stands at pc. -/
theorem ready_step_answers {s t : State} (hs : s.Ready) (hst : step s = .next t) :
    (∃ c, decodeChecked s.fetch = .error c ∧ t = s.takeFault c) ∨
      ∃ i, decodeChecked s.fetch = .ok i ∧ ExecAnswers s i (.next t) := by
  rcases step_ready_cases hs with ⟨c, hd, e⟩ | ⟨i, hd, e⟩ <;> rw [hst] at e
  · exact .inl ⟨c, hd, Host.Outcome.next.inj e⟩
  · exact .inr ⟨i, hd, answers_of_exec e.symm⟩

/-- Settles O39: a register that is not the destination of the decoded instruction is kept. -/
theorem onlyDestinationsWriteRegisters : Obligations.OnlyDestinationsWriteRegisters := by
  intro s t q hs hst hne
  rcases ready_step_answers hs hst with ⟨c, -, rfl⟩ | ⟨i, hd, h⟩
  · exact absurd rfl hne
  · exact ⟨i, hd, by_contra fun hq => hne (h.reg_eq hq)⟩

/-- Settles O40: the opcode word at pc is that of the decoded instruction, which moved the stack. -/
theorem onlyStackInstrsReachStack : Obligations.OnlyStackInstrsReachStack := by
  intro s t hs hst hne
  rcases ready_step_answers hs hst with ⟨c, -, rfl⟩ | ⟨i, hd, h⟩
  · exact absurd hne (by simp)
  · have hi : i.mnemonic ∈ [.push, .pop, .call, .ret] := by
      by_contra hi
      obtain ⟨hsp, hstk⟩ := h.stack_eq hi
      exact hne.elim (· hsp) (· hstk)
    simp only [List.mem_cons, List.not_mem_nil, or_false] at hi
    rw [(decoded_at_pc hd).1]
    rcases hi with e | e | e | e <;> rw [e]
    exacts [.inl rfl, .inr (.inl rfl), .inr (.inr (.inl rfl)), .inr (.inr (.inr rfl))]

/-- Settles O41: the address a WMEM stores at is the only one that reads anew, and what it stores is a value. -/
theorem onlyWmemWritesCode : Obligations.OnlyWmemWritesCode := by
  intro s t a hinv hs hst hne
  rcases ready_step_answers hs hst with ⟨c, -, rfl⟩ | ⟨i, hd, h⟩
  · exact absurd rfl hne
  · rcases h.code_cases with e | ⟨hm, x, y, e⟩
    · exact absurd (by rw [e]) hne
    · obtain rfl : a = x.toNat := by
        by_contra ha
        exact hne (by rw [e, Memory.read_write_ne _ _ _ _ ha])
      refine ⟨by rw [(decoded_at_pc hd).1, hm]; rfl, x.isLt, ?_⟩
      rw [e, Memory.read_write_same _ _ _ hinv.code_wf.1, BitVec.toNat_setWidth]
      omega

/-- Settles O42: the only answers of an instruction that are no next state are the two waits of IN. -/
theorem onlyInSuspends : Obligations.OnlyInSuspends := by
  intro s hs
  rcases step_ready_cases hs with ⟨c, -, e⟩ | ⟨i, hd, e⟩
  · exact .inl ⟨_, e⟩
  · have hop := (decoded_at_pc hd).1
    have h := answers_of_exec e.symm
    generalize step s = r at h
    cases h with
    | awaitsInput d hin => exact .inr (.inl ⟨hop, hin, rfl⟩)
    | awaitsSnapshot d rest hin hans => exact .inr (.inr ⟨hop, ⟨rest, hin⟩, hans, rfl⟩)
    | _ => exact .inl ⟨_, rfl⟩

/-- Settles O47: a decoded instruction ends inside the code region, so only a linear advance to its very end or a RET
leaves it. -/
theorem pcBeyondRegion : Obligations.PcBeyondRegion := by
  intro s t hs hst hpc
  rcases ready_step_answers hs hst with ⟨c, hd, rfl⟩ | ⟨i, hd, h⟩
  · cases hd.symm.trans (decodeChecked_beyond hpc)
    exact .inl ⟨rfl, rfl⟩
  · obtain ⟨hop, hend⟩ := decoded_at_pc hd
    have hlen : 0 < i.length := by rw [Instr.length]; omega
    rcases h.pc_cases with ⟨-, e⟩ | ⟨-, e⟩ | ⟨-, hlt⟩ | ⟨rfl, hsp, e⟩ | ⟨c, -, e⟩
    · rw [e] at hpc; omega
    · have hsum := advance_toNat (p := s.pc) (by omega) i
      rw [← e] at hsum
      exact .inr (.inl ⟨by omega, i, hd, by omega⟩)
    · omega
    · exact .inr (.inr ⟨hop, hsp, e⟩)
    · rw [e] at hpc; omega

end Sys2Proof.Machine
end

section
/-! PROOFS. The record an IN hands over is that of the state it commits (R25, R107), what a reset loads from a record
(R120, R122), and the host-visible status (R109). -/

namespace Sys2Proof.Machine

/-! ### The unified record is read back word by word -/

/-- A store split at address b. -/
theorem Memory.read_append_of_bound {m n : Memory} {b : Nat} (hm : ∀ c ∈ m, c.1 < b) (hn : ∀ c ∈ n, b ≤ c.1)
    (a : Nat) : Memory.read (m ++ n) a = if a < b then m.read a else n.read a := by
  split
  · exact Memory.read_append_left m n a fun c hc => by have := hn c hc; omega
  · exact Memory.read_append_right m n a fun c hc => by have := hm c hc; omega

/-- Which part of the unified record an address reads (R25). -/
theorem read_unified {s : State} (h : s.Inv) (a : Nat) :
    s.unified.read a =
      if a < s.memSize - 1 then
        if a < s.memSize - 2 then
          if a < 32776 then
            if a < 32768 then s.code.read a else (regCells 0 s.regs.toList).read a
          else (stackCells s).read a
        else (Memory.cell (s.memSize - 2) (trailerSp s.sp)).read a
      else (Memory.cell (s.memSize - 1) s.pc).read a := by
  obtain ⟨hcode, hregs, hstk, hsp, hpc, hm⟩ := unified_parts h
  have below_stack : ∀ c ∈ s.code ++ regCells 0 s.regs.toList, c.1 < 32776 := fun c hc =>
    (List.mem_append.1 hc).elim (fun hc => by have := hcode c hc; omega) fun hc => (hregs c hc).2
  have below_sp : ∀ c ∈ s.code ++ regCells 0 s.regs.toList ++ stackCells s, c.1 < s.memSize - 2 := fun c hc =>
    (List.mem_append.1 hc).elim (fun hc => by have := below_stack c hc; omega) fun hc => (hstk c hc).2
  have below_pc : ∀ c ∈ s.code ++ regCells 0 s.regs.toList ++ stackCells s ++
      Memory.cell (s.memSize - 2) (trailerSp s.sp), c.1 < s.memSize - 1 := fun c hc =>
    (List.mem_append.1 hc).elim (fun hc => by have := below_sp c hc; omega) fun hc => by have := hsp c hc; omega
  rw [unified_eq, Memory.read_append_of_bound below_pc fun c hc => (hpc c hc).ge,
    Memory.read_append_of_bound below_sp fun c hc => (hsp c hc).ge,
    Memory.read_append_of_bound below_stack fun c hc => (hstk c hc).1,
    Memory.read_append_of_bound hcode fun c hc => (hregs c hc).1]

/-- The record of a legal state whose sp fits a 16-bit word holds that state (R25). -/
theorem isRecordOf_unified {s : State} (h : s.Inv) (hsp : s.sp < 65536) : IsRecordOf s.unified s := by
  have hm : 32778 ≤ s.memSize := h.memSize_ge
  constructor
  case code =>
    intro a ha
    rw [read_unified h, if_pos (by omega), if_pos (by omega), if_pos (by omega), if_pos ha]
  case regs =>
    intro r
    have hword := read_regCells 0 s.regs.toList r.val (by simp)
    rw [read_unified h, if_pos (by omega), if_pos (by omega), if_pos (by omega), if_neg (by omega), hword,
      Vector.getElem_toList, BitVec.toNat_setWidth_of_le (by omega)]
    rfl
  case stk =>
    intro i hi
    have hcap := cap_eq s
    have hword : (stackCells s).read (32776 + i) = s.stk.read (32776 + i - 32776) :=
      Memory.read_shift_up s.stk 32776 (32776 + i) (Nat.le_add_right _ _)
    rw [read_unified h, if_pos (by omega), if_pos (by omega), if_neg (by omega), hword, Nat.add_sub_cancel_left]
  case sp =>
    rw [read_unified h, if_pos (by omega), if_neg (by omega), Memory.read_cell_same, trailerSp, if_pos hsp,
      BitVec.toNat_ofNat, Nat.mod_eq_of_lt hsp]
  case pc => rw [read_unified h, if_neg (by omega), Memory.read_cell_same]

/-- A record says nothing of the host's side (R25). -/
theorem IsRecordOf.setEnv {L : Memory} {s : State} (h : IsRecordOf L s) (e : Env) : IsRecordOf L (s.setEnv e) :=
  { h with }

/-! ### IN with the host's answers written out -/

/-- An IN whose input answer is ready consumes it and delivers the byte (R107). -/
theorem execInp_byte {s : State} {b : Byte} {rest : List InputAnswer} (r : RegIdx)
    (h : s.env.input = .byte b :: rest) :
    execInp (.reg r) s = deliverByte r b (s.setEnv (consumed s (.byte b) rest)) := by
  rcases s.inputByte_cases with ⟨h', -⟩ | ⟨a, rest', h', hb⟩
  · cases h.symm.trans h'
  · cases h.symm.trans h'
    simp only [execInp, dst_reg, hb, consumed]

/-- An IN of the save trigger asks for the snapshot of the state it is about to commit (R107). -/
theorem execInp_trigger {s : State} {rest : List InputAnswer} (r : RegIdx) (h : s.env.input = .byte 16 :: rest) :
    execInp (.reg r) s = (s.setEnv (consumed s (.byte 16) rest)).snapshot
      (((s.setEnv (consumed s (.byte 16) rest)).setReg r 16).advance 2) := by
  rw [execInp_byte r h, deliverByte_trigger]

theorem snapshot_of_ok {s : State} {answers : List SnapshotAnswer} (t : State)
    (h : s.env.snapshotAnswers = .ok :: answers) :
    s.snapshot t = .next (t.setEnv { s.env with
      snapshotAnswers := answers, events := s.env.events ++ [.snapshot t.unified .ok] }) := by
  simp only [State.snapshot, h]

theorem snapshot_of_no_answer {s : State} (t : State) (h : s.env.snapshotAnswers = []) :
    s.snapshot t = .fault .awaitingSnapshot := by
  simp only [State.snapshot, h]

/-- Settles O28: what the IN commits is a legal state again, and its record does not depend on the host's side. -/
theorem inSavesOnTrigger : Obligations.InSavesOnTrigger := by
  intro s r rest answers hinv hsp hin hans
  have hcommit := (((Completes.refl s).setEnv (consumed_resetRequest s (.byte 16) rest)).setReg r 16).advance 2
  refine ⟨_, _, (execInp_trigger r hin).trans (snapshot_of_ok _ hans),
    (isRecordOf_unified (hcommit.inv hinv) hsp).setEnv _, ?_⟩
  simp only [consumed, State.setEnv_env, List.append_assoc, List.cons_append, List.nil_append]
  rfl

/-- Settles O30: with no input answer IN waits, and with the save trigger it waits for the snapshot's answer. -/
theorem inWaitsForHost : Obligations.InWaitsForHost := by
  intro s r
  constructor
  · intro hin
    rcases s.inputByte_cases with ⟨-, hb⟩ | ⟨a, rest, h, -⟩
    · simp only [exec_inp, execInp, dst_reg, hb]
    · cases hin.symm.trans h
  · intro rest hin hans
    exact (execInp_trigger r hin).trans (snapshot_of_no_answer _ hans)

/-! ### Reset from a record -/

theorem resetFrom_reg (s : State) (L : Memory) (r : RegIdx) : (s.resetFrom L).reg r = loadReg L r.val := by
  fin_cases r <;> rfl

/-- A register word that fits is loaded as it is (R120). -/
theorem loadReg_toNat {L : Memory} {i : Nat} (h : (L.read (32768 + i)).toNat ≤ 32767) :
    (loadReg L i).toNat = (L.read (32768 + i)).toNat := by
  rw [loadReg, Config.regBase, if_pos h, BitVec.toNat_setWidth]
  omega

/-- An sp word up to STACK_CAPACITY is loaded as it is (R120). -/
theorem resetFrom_sp {s : State} {L : Memory} (h : (L.read (s.memSize - 2)).toNat ≤ s.cap) :
    (s.resetFrom L).sp = (L.read (s.memSize - 2)).toNat := if_pos h

/-- R121's two conditions make a record valid. -/
theorem loadValid_of_le {memSize : Nat} {L : Memory} (hregs : ∀ r : RegIdx, (L.read (32768 + r.val)).toNat ≤ 32767)
    (hsp : (L.read (memSize - 2)).toNat ≤ Config.stackCapacity memSize) : loadValid memSize L = true := by
  rw [loadValid, Bool.and_eq_true, List.all_eq_true]
  exact ⟨fun i hi => decide_eq_true (hregs ⟨i, List.mem_range.1 hi⟩), decide_eq_true hsp⟩

/-- A reset from a valid record runs (R120). -/
theorem resetFrom_run {s : State} {L : Memory} (h : loadValid s.memSize L = true) : (s.resetFrom L).run = .running :=
  if_pos h

/-- Settles O50: each field of the state after the reset is read back from the record. -/
theorem resetLoadsRecord : Obligations.ResetLoadsRecord := by
  intro s L hreq hregs hsp
  refine ⟨s.resetFrom L, step_of_request hreq, fun a ha => read_resetFrom_code s L a ha, fun r => ?_,
    fun i hi => read_resetFrom_stk s L i hi, resetFrom_sp hsp, rfl, resetFrom_run (loadValid_of_le hregs hsp), rfl, rfl⟩
  rw [resetFrom_reg, loadReg_toNat (hregs r)]

/-- The record of a fresh image reads its words from address 0 on, and 0 beyond them. -/
theorem read_image (ws : List CodeWord) (a : Nat) : (Memory.place [] 0 ws).read a = ws.getD a 0 := by
  rw [Memory.read_place [] 0 a ws .nil]
  split
  · next h => exact (List.getD_eq_getElem ws 0 h.2).symm
  · next h => exact (List.getD_eq_default ws 0 (by omega)).symm

/-- A record with no word at 32768 or above leaves no stack slot listed (R122). -/
theorem resetFrom_stk_eq_nil {s : State} {L : Memory} (h : Memory.wf 32768 L) : (s.resetFrom L).stk = [] := by
  refine List.map_eq_nil_iff.2 (List.filter_eq_nil_iff.2 fun c hc hp => ?_)
  have hlow := (h.2 c hc).1
  have hhigh : 32776 ≤ c.1 := (of_decide_eq_true hp).1
  omega

/-- Settles O52: such a record is valid, since every word from 32768 on is 0, and R120 loads it. -/
theorem freshImageReset : Obligations.FreshImageReset := by
  intro s ws hm hlen hreq
  have hzero : ∀ a, 32768 ≤ a → (Memory.place [] 0 ws).read a = 0 := fun a ha => by
    rw [read_image, List.getD_eq_default _ _ (by omega)]
  have hsp := hzero (s.memSize - 2) (by omega)
  obtain ⟨t, hst, hcode, hregs, -, hspt, hpct, hrun, -⟩ :=
    resetLoadsRecord s _ hreq (fun r => by rw [hzero _ (by omega)]; decide) (by rw [hsp]; exact Nat.zero_le _)
  obtain rfl : s.resetFrom _ = t := Host.Outcome.next.inj ((step_of_request hreq).symm.trans hst)
  refine ⟨_, hst, fun a ha => (hcode a ha).trans (read_image ws a), fun r => ?_, fun i => ?_, ?_, ?_, hrun⟩
  · exact BitVec.eq_of_toNat_eq (by rw [hregs, hzero _ (by omega)]; rfl)
  · rw [resetFrom_stk_eq_nil (Memory.wf_place (Memory.wf_nil _) (by omega))]
    rfl
  · rw [hspt, hsp]
    rfl
  · rw [hpct, hzero _ (by omega)]

/-! ### The host-visible status -/

section
variable {s : State}

theorem status_of_running (h : s.run = .running) : s.status = (0, 0) := by
  simp only [State.status, h]

theorem status_of_halted (h : s.run = .halted) : s.status = (1, 0) := by
  simp only [State.status, h]

theorem status_of_faulted {c : Cause} (h : s.run = .faulted c) : s.status = (2, c.code) := by
  simp only [State.status, h]

end

/-- The run state a status pair stands for, read off the table of R109. -/
def runOfStatus : Nat × Nat → RunState
  | (0, _) => .running
  | (1, _) => .halted
  | (_ + 2, code) => .faulted (Cause.ofNat (code - 1))

/-- The codes number the causes from 1 in the order of R109, so a code gives its cause back. -/
theorem ofNat_code_sub_one (c : Cause) : Cause.ofNat (c.code - 1) = c := by
  cases c <;> rfl

/-- The status loses nothing of the run state. -/
theorem runOfStatus_status (s : State) : runOfStatus s.status = s.run := by
  cases h : s.run with
  | running => rw [status_of_running h, runOfStatus]
  | halted => rw [status_of_halted h, runOfStatus]
  | faulted c => rw [status_of_faulted h, runOfStatus, ofNat_code_sub_one]

theorem status_eq_iff (s t : State) : s.status = t.status ↔ s.run = t.run := by
  constructor <;> intro h
  · rw [← runOfStatus_status s, h, runOfStatus_status]
  · rw [State.status, State.status, h]

/-- Settles O57: a status pair determines its run state, and each row of the table is its code. -/
theorem statusTellsOutcomes : Obligations.StatusTellsOutcomes := fun s t =>
  ⟨status_eq_iff s t, status_of_running, status_of_halted, status_of_faulted, status_of_faulted, status_of_faulted,
    status_of_faulted, status_of_faulted, status_of_faulted, status_of_faulted, status_of_faulted, status_of_faulted,
    status_of_faulted, status_of_faulted, status_of_faulted⟩

end Sys2Proof.Machine
end

section
/-! PROOFS. WMEM's own frame (R31, R101), and the coherence of a store with the fetch of the very next step (R41, R43). -/

namespace Sys2Proof.Machine

/-! ### The frame of WMEM -/

/-- Settles O37: WMEM stores at the address its first operand denotes and advances, or faults with the state kept. -/
theorem wmemFrame : Obligations.WmemFrame := by
  intro a v s t hexec
  rw [exec_wmem] at hexec
  rcases execWmem_cases a v s with ⟨x, y, hx, -, e⟩ | ⟨c, e, -⟩ <;> cases e.symm.trans hexec
  · exact ⟨fun b hb => Memory.read_write_ne _ _ _ _ (hb x (val_of_denotes hx)).symm,
      fun _ => rfl, rfl, fun _ => rfl, rfl, rfl, .inl rfl⟩
  · exact ⟨fun _ _ => rfl, fun _ => rfl, rfl, fun _ => rfl, rfl, rfl, .inr ⟨c, rfl⟩⟩

/-! ### The step at a word that is no opcode, and at a HALT word -/

theorem decodeChecked_of_decode_error {ws : List CodeWord} {c : Cause} (h : decode ws = .error c) :
    decodeChecked ws = .error c := by
  rw [decodeChecked, h]

theorem decodeChecked_of_decode_ok {ws rest : List CodeWord} {i : Instr} (h : decode ws = .ok (i, rest))
    (hw : i.wellFormed = true) : decodeChecked ws = .ok i := by
  simp only [decodeChecked, h, (Instr.operandFault_eq_none i).2 hw]

section
variable {s : State}

/-- With pc in the code region, fetch begins with the opcode word (R45). -/
theorem fetch_eq_cons (hpc : s.pc.toNat < 32768) : ∃ rest, s.fetch = s.code.read s.pc.toNat :: rest :=
  ⟨_, Memory.fetch_succ s.code 3 s.pc.toNat hpc⟩

/-- Decode rejects an unknown opcode word before anything else about the instruction (R55, R113). -/
theorem step_of_illegalOpcode (hs : s.Ready) (hpc : s.pc.toNat < 32768) (hop : 22 ≤ s.opcodeAt) :
    step s = .next (s.takeFault .illegalOpcode) := by
  obtain ⟨rest, hfetch⟩ := fetch_eq_cons hpc
  refine step_of_decode_error hs (decodeChecked_of_decode_error ?_)
  rw [hfetch, decode_illegal _ _ hop]

/-- The opcode of HALT is 0 and it takes no operand (R47, R105). -/
theorem step_of_haltOpcode (hs : s.Ready) (hpc : s.pc.toNat < 32768) (hop : s.opcodeAt = 0) :
    step s = .next (s.setRun .halted) := by
  obtain ⟨rest, hfetch⟩ := fetch_eq_cons hpc
  have hword : s.code.read s.pc.toNat = Mnemonic.halt.opcode := BitVec.eq_of_toNat_eq hop
  have hdec : decode s.fetch = .ok (.halt, rest) := by
    rw [hfetch, hword]
    exact decode_build .halt [] rest .halt rfl
  exact step_of_decode_ok hs (decodeChecked_of_decode_ok hdec rfl)

/-! ### A store to the word fetched next -/

/-- What WMEM does with operands that denote values (R101). -/
theorem exec_wmem_of_denotes {a v : Operand} {x y : Value} (hx : Denotes s a x) (hy : Denotes s v y) :
    exec (.wmem a v) s = .next ((s.memWrite x y).advance 3) := by
  simp [execWmem, val_of_denotes hx, val_of_denotes hy]

/-- After a WMEM to the word that follows it, pc stands at that word. -/
theorem pc_after_wmem {x : Value} (y : Value) (h : s.pc.toNat + 3 = x.toNat) :
    ((s.memWrite x y).advance 3).pc.toNat = x.toNat := by
  rw [State.advance_pc, State.memWrite_pc, BitVec.toNat_add, BitVec.toNat_ofNat]
  omega

/-- After a WMEM to the word that follows it, the opcode word is the value stored (R41). -/
theorem opcodeAt_after_wmem {x : Value} (y : Value) (hinv : s.Inv) (h : s.pc.toNat + 3 = x.toNat) :
    ((s.memWrite x y).advance 3).opcodeAt = y.toNat := by
  rw [State.opcodeAt, pc_after_wmem y h, State.advance_code, State.memWrite_code,
    Memory.read_write_same _ _ _ hinv.code_wf.1, BitVec.toNat_setWidth_of_le (by omega)]

end

/-- Settles O56: the next step finds the stored value as its opcode word, inside the code region. -/
theorem wmemSeenByNextFetch : Obligations.WmemSeenByNextFetch := by
  intro s a v x y hinv hs hx hy h
  have hready : ((s.memWrite x y).advance 3).Ready := hs
  have hpc : ((s.memWrite x y).advance 3).pc.toNat < 32768 := pc_after_wmem y h ▸ x.isLt
  have hop := opcodeAt_after_wmem y hinv h
  refine ⟨_, exec_wmem_of_denotes hx hy, fun hillegal => ?_, fun hzero => ?_⟩
  · exact step_of_illegalOpcode hready hpc (hop ▸ hillegal)
  · exact step_of_haltOpcode hready hpc (hop.trans hzero)

end Sys2Proof.Machine
end

section
/-! PROOFS. The encoding of 30_encoding.md: `encode` and `decode` are inverse (R45 to R48, R60), what a Ready step does
with the words that stand at pc, row by row of R47, and the Decode faults (R53 to R56). -/

namespace Sys2Proof

/-! ### Decoding and encoding -/

/-- No operand of a well-formed instruction is an invalid word: a destination is a register reference (R49, R50). -/
theorem Instr.isValue_of_mem_operands {i : Instr} (h : i.wellFormed = true) :
    ∀ o ∈ i.operands, o.isValue = true := by
  cases i <;> simp_all [Instr.wellFormed, Instr.operands, Operand.isValue_of_isDestination]

/-- The operands of a well-formed instruction come back from their words. -/
theorem Instr.map_ofWord_map_toWord_operands {i : Instr} (h : i.wellFormed = true) :
    (i.operands.map Operand.toWord).map Operand.ofWord = i.operands := by
  rw [List.map_map]
  calc i.operands.map (Operand.ofWord ∘ Operand.toWord)
      = i.operands.map id := List.map_congr_left fun o ho => Operand.ofWord_toWord o (isValue_of_mem_operands h o ho)
    _ = i.operands := List.map_id _

/-- Settles O3: the words of the operands give the operands back, and the row is built from them again. -/
theorem decodeOfEncode : Obligations.DecodeOfEncode := by
  intro i rest hwf
  refine decode_build i.mnemonic (i.operands.map Operand.toWord) rest i ?_
  rw [Instr.map_ofWord_map_toWord_operands hwf, Instr.build_operands]

/-- Settles O4: the opcode word is the row's, and the class of an operand word keeps all its bits. -/
theorem encodeOfDecode : Obligations.EncodeOfDecode := by
  intro ws rest i h
  obtain ⟨os, hws, hos⟩ := decode_ok h
  have hwords : i.operands.map Operand.toWord = os := by
    rw [← hos, List.map_map]
    exact List.map_id'' Operand.toWord_ofWord os
  rw [hws, encode, hwords, List.cons_append]

/-- Words that follow those Decode needs change nothing. -/
theorem decode_append {ws rest : List CodeWord} {i : Instr} (h : decode ws = .ok (i, rest)) (more : List CodeWord) :
    decode (ws ++ more) = .ok (i, rest ++ more) := by
  obtain ⟨os, rfl, hos⟩ := decode_ok h
  rw [List.cons_append, List.append_assoc]
  exact decode_build _ os _ i (by rw [hos, Instr.build_operands])

/-- Settles O1: nine rows decode as written, and the three faults are those of an opcode word of 22 or more and of a SET
with one operand word. -/
theorem sampleWordsDecode : Obligations.SampleWordsDecode :=
  ⟨by decide, by decide, by decide, by decide, by decide, by decide, by decide, by decide, by decide,
    decode_illegal 22 [] (by decide), decode_illegal 32768 [] (by decide), decode_short .set [32768] (by decide)⟩

/-- Settles O2: one law of operand words for each of the three ranges. -/
theorem operandWordClasses : Obligations.OperandWordClasses := by
  intro w
  refine ⟨fun h => ⟨_, Operand.ofWord_literal w (by omega), ?_⟩, fun hlo hhi => ?_, Operand.ofWord_invalid w⟩
  · rw [BitVec.toNat_setWidth]
    omega
  · exact ⟨⟨w.toNat - 32768, by omega⟩, Operand.ofWord_register w _ (by simp only; omega), rfl⟩

end Sys2Proof

namespace Sys2Proof.Machine

/-! ### The operand checks on words -/

/-- A word that fits its position passes the check of Decode (R49, R50). -/
theorem operandFault_of_fits {k : Kind} {w : CodeWord} (h : Fits k w) : k.operandFault (Operand.ofWord w) = none := by
  cases k with
  | dst => exact if_pos ((Operand.isDestination_ofWord w).2 h)
  | val => exact if_pos ((Operand.isValue_ofWord w).2 h)

/-- A word that does not fit raises the fault of its position (R56). -/
theorem operandFault_of_not_fits {k : Kind} {w : CodeWord} (h : ¬ Fits k w) :
    k.operandFault (Operand.ofWord w) = some (misfitCause k) := by
  cases k with
  | dst => exact if_neg (mt (Operand.isDestination_ofWord w).1 h)
  | val => exact if_neg (mt (Operand.isValue_ofWord w).1 h)

/-- Words that all fit their positions raise no fault. -/
theorem firstOperandFault_of_fits {ks : List Kind} {ws : List CodeWord} (h : List.Forall₂ Fits ks ws) :
    firstOperandFault ks (ws.map Operand.ofWord) = none := by
  induction h with
  | nil => rfl
  | cons hfit _ ih => rw [List.map_cons, firstOperandFault_none_cons _ _ _ _ (operandFault_of_fits hfit), ih]

/-- The first word from the left that does not fit determines the fault (R56). -/
theorem firstOperandFault_of_first_misfit {ks : List Kind} {ws : List CodeWord} {k : Nat} (hk : k < ks.length)
    (hw : k < ws.length) (hfit : ∀ (j : Nat) (hj : j < k), Fits ks[j] ws[j]) (hbad : ¬ Fits ks[k] ws[k]) :
    firstOperandFault ks (ws.map Operand.ofWord) = some (misfitCause ks[k]) := by
  induction k generalizing ks ws with
  | zero =>
    match ks, ws with
    | κ :: ks, w :: ws => simp [firstOperandFault, operandFault_of_not_fits (show ¬ Fits κ w from hbad)]
  | succ k ih =>
    match ks, ws with
    | κ :: ks, w :: ws =>
      have hhead : Fits κ w := hfit 0 (by omega)
      rw [List.map_cons, firstOperandFault_none_cons _ _ _ _ (operandFault_of_fits hhead)]
      exact ih (by simpa using hk) (by simpa using hw) (fun j hj => hfit (j + 1) (by omega)) hbad

/-- Decode answers the first operand fault of the instruction it has read (R53). -/
theorem decodeChecked_of_operandFault {ws rest : List CodeWord} {i : Instr} {c : Cause}
    (h : decode ws = .ok (i, rest)) (hc : i.operandFault = some c) : decodeChecked ws = .error c := by
  simp only [decodeChecked, h, hc]

/-- The operand checks of an instruction built from words are those of the words in the row's positions. -/
theorem operandFault_of_build {m : Mnemonic} {ws : List CodeWord} {i : Instr}
    (h : Instr.build m (ws.map Operand.ofWord) = some i) :
    i.operandFault = firstOperandFault m.kinds (ws.map Operand.ofWord) := by
  obtain ⟨hm, ho⟩ := Instr.of_build h
  rw [Instr.operandFault, hm, ho]

/-! ### The step on the words at pc -/

/-- Settles O6: the operand checks pass on a well-formed instruction, and the step is exec of it. -/
theorem stepRunsDecodedInstr : Obligations.StepRunsDecodedInstr := fun _ _ _ hs hdec hwf =>
  step_of_decode_ok hs (decodeChecked_of_decode_ok hdec hwf)

section
variable {s : State} {m : Mnemonic} {ws : List CodeWord} {i : Instr}

/-- Decoding at pc reads the words that stand there. -/
theorem decode_fetch_of_wordsAt {rest : List CodeWord} (hw : s.WordsAt ws) (hl : ws.length ≤ 4)
    (hdec : decode ws = .ok (i, rest)) : ∃ rest', decode s.fetch = .ok (i, rest') := by
  obtain ⟨more, hfetch⟩ := fetch_of_wordsAt hw hl
  exact ⟨_, hfetch ▸ decode_append hdec more⟩

/-- With a row's words at pc, Decode reads the instruction built from their classes (R45, R47). -/
theorem decode_fetch_of_build (hw : s.WordsAt (m.opcode :: ws))
    (hb : Instr.build m (ws.map Operand.ofWord) = some i) : ∃ rest, decode s.fetch = .ok (i, rest) := by
  have hlen : ws.length = m.kinds.length := by
    obtain ⟨rfl, ho⟩ := Instr.of_build hb
    rw [← Instr.operands_length, ho, List.length_map]
  have hl : (m.opcode :: ws).length ≤ 4 := by
    have := m.kinds_length_le
    rw [List.length_cons]
    omega
  exact decode_fetch_of_wordsAt hw hl (by simpa using decode_build m ws [] i hb)

/-- With a row's words at pc and its operand words fitting, the step is exec of the row's instruction (R47, R53). -/
theorem step_of_row (hs : s.Ready) (m : Mnemonic) (hw : s.WordsAt (m.opcode :: ws))
    (hb : Instr.build m (ws.map Operand.ofWord) = some i) (hfit : List.Forall₂ Fits m.kinds ws) :
    step s = exec i s := by
  obtain ⟨rest, hdec⟩ := decode_fetch_of_build hw hb
  have hwf : i.wellFormed = true :=
    (Instr.operandFault_eq_none i).1 ((operandFault_of_build hb).trans (firstOperandFault_of_fits hfit))
  exact stepRunsDecodedInstr s i rest hs hdec hwf

/-- When an operand word of a row lies beyond the code region, Decode finds too few words (R54). -/
theorem decode_fetch_of_cut_off (hpc : s.pc.toNat < 32768) (hop : s.code.read s.pc.toNat = m.opcode)
    (hend : 32768 ≤ s.pc.toNat + m.kinds.length) : decode s.fetch = .error .pcOutOfRange := by
  rw [State.fetch, Memory.fetch_succ _ _ _ hpc, hop]
  have hlen := Memory.fetch_length_le s.code 3 (s.pc.toNat + 1)
  exact decode_short m _ (by omega)

end

/-- Settles O5: each row is `step_of_row` with the row's kinds. -/
theorem opcodeMapRuns : Obligations.OpcodeMapRuns := by
  intro s w1 w2 w3 hs
  exact
    ⟨fun hw => step_of_row hs .halt hw rfl .nil,
      fun hw h1 h2 => step_of_row hs .set hw rfl (.cons h1 (.cons h2 .nil)),
      fun hw h1 => step_of_row hs .push hw rfl (.cons h1 .nil),
      fun hw h1 => step_of_row hs .pop hw rfl (.cons h1 .nil),
      fun hw h1 h2 h3 => step_of_row hs .eq hw rfl (.cons h1 (.cons h2 (.cons h3 .nil))),
      fun hw h1 h2 h3 => step_of_row hs .gt hw rfl (.cons h1 (.cons h2 (.cons h3 .nil))),
      fun hw h1 => step_of_row hs .jmp hw rfl (.cons h1 .nil),
      fun hw h1 h2 => step_of_row hs .jt hw rfl (.cons h1 (.cons h2 .nil)),
      fun hw h1 h2 => step_of_row hs .jf hw rfl (.cons h1 (.cons h2 .nil)),
      fun hw h1 h2 h3 => step_of_row hs .add hw rfl (.cons h1 (.cons h2 (.cons h3 .nil))),
      fun hw h1 h2 h3 => step_of_row hs .mult hw rfl (.cons h1 (.cons h2 (.cons h3 .nil))),
      fun hw h1 h2 h3 => step_of_row hs .mod hw rfl (.cons h1 (.cons h2 (.cons h3 .nil))),
      fun hw h1 h2 h3 => step_of_row hs .and hw rfl (.cons h1 (.cons h2 (.cons h3 .nil))),
      fun hw h1 h2 h3 => step_of_row hs .or hw rfl (.cons h1 (.cons h2 (.cons h3 .nil))),
      fun hw h1 h2 => step_of_row hs .not hw rfl (.cons h1 (.cons h2 .nil)),
      fun hw h1 h2 => step_of_row hs .rmem hw rfl (.cons h1 (.cons h2 .nil)),
      fun hw h1 h2 => step_of_row hs .wmem hw rfl (.cons h1 (.cons h2 .nil)),
      fun hw h1 => step_of_row hs .call hw rfl (.cons h1 .nil),
      fun hw => step_of_row hs .ret hw rfl .nil,
      fun hw h1 => step_of_row hs .out hw rfl (.cons h1 .nil),
      fun hw h1 => step_of_row hs .inp hw rfl (.cons h1 .nil),
      fun hw => step_of_row hs .noop hw rfl .nil⟩

/-! ### The faults of Decode -/

/-- Settles O7: Decode rejects the opcode word and the fault entry keeps everything but run (R114). -/
theorem illegalOpcodeFaults : Obligations.IllegalOpcodeFaults := fun _ hs hpc hop =>
  step_of_illegalOpcode hs (by omega) hop

/-- Settles O8: no word is fetched at a pc beyond the region, and too few where a row's last word lies beyond it. -/
theorem fetchBeyondRegionFaults : Obligations.FetchBeyondRegionFaults := fun _ hs =>
  ⟨fun hpc => step_of_decode_error hs (decodeChecked_beyond hpc), fun _ hpc hop hend =>
    step_of_decode_error hs (decodeChecked_of_decode_error (decode_fetch_of_cut_off (by omega) hop hend))⟩

/-- Settles O9: Decode reads the row's instruction, and the first misfit among its words determines the fault. -/
theorem firstBadOperandFaults : Obligations.FirstBadOperandFaults := by
  intro s m ws k hw hk hs hwords hlen hfit hbad
  obtain ⟨i, hb⟩ := Instr.build_isSome m (ws.map Operand.ofWord) (by rw [List.length_map, hlen])
  obtain ⟨rest, hdec⟩ := decode_fetch_of_build hwords hb
  have hfault : i.operandFault = some (misfitCause m.kinds[k]) :=
    (operandFault_of_build hb).trans (firstOperandFault_of_first_misfit hk hw hfit hbad)
  exact step_of_decode_error hs (decodeChecked_of_operandFault hdec hfault)

/-! ### The words the host places -/

/-- The k-th word placed from an address on is read back k words after it. -/
theorem read_place_add {mem : Memory} {a k : Nat} {ws : List CodeWord} (h : mem.Pairwise fun c d => c.1 < d.1)
    (hk : k < ws.length) : (mem.place a ws).read (a + k) = ws[k] := by
  rw [Memory.read_place _ _ _ _ h]
  simp [hk]

theorem decode_of_decodeTableWord {nbits w : Nat} {i : Instr} (h : decodeTableWord nbits w = some i) :
    ∃ rest, decode (tableWords nbits w) = .ok (i, rest) := by
  unfold decodeTableWord at h
  split at h <;> cases h
  next rest hdec => exact ⟨rest, hdec⟩

/-- Four words from the placing address lie in the code region (R45). -/
theorem placeAddr_le (s : State) : s.placeAddr + 4 ≤ 32768 := by
  unfold State.placeAddr
  split
  · next h => exact h
  · decide

theorem withFetchWord_pc_toNat (s : State) (nbits w : Nat) : (s.withFetchWord nbits w).pc.toNat = s.placeAddr := by
  have := placeAddr_le s
  simp only [State.withFetchWord, BitVec.toNat_ofNat]
  omega

/-- The placed words stand at the pc of the state they are placed in. -/
theorem wordsAt_withFetchWord {s : State} (h : Memory.wf 32768 s.code) (nbits w : Nat) :
    (s.withFetchWord nbits w).WordsAt (tableWords nbits w) := by
  rw [State.WordsAt, withFetchWord_pc_toNat]
  exact ⟨placeAddr_le s, fun _ hk => read_place_add h.1 hk⟩

/-- Settles O58: the placed words stand at pc, and Decode reads there what it reads from them alone. -/
theorem placedWordsRunNext : Obligations.PlacedWordsRunNext := by
  intro s nbits w i hwf htable hi
  obtain ⟨rest, hdec⟩ := decode_of_decodeTableWord htable
  obtain ⟨rest', hfetch⟩ := decode_fetch_of_wordsAt (wordsAt_withFetchWord hwf nbits w) (Nat.le_refl 4) hdec
  exact stepRunsDecodedInstr _ i rest' ⟨rfl, rfl⟩ hfetch hi

end Sys2Proof.Machine
end

section
/-! PROOFS. The ALU's operations as numbers (R73 to R81), the computing instructions on legal operands (42_compare.md,
44_arith_logic.md), and the stack: PUSH, POP, and pushes undone by pops in reverse order (R70, R83, R84). -/

namespace Sys2Proof.Machine

/-! ### The ALU -/

theorem add15_toNat (x y : Value) : (add15 x y).toNat = (x.toNat + y.toNat) % 32768 := by
  rw [add15, BitVec.toNat_ofNat, Config.modulus, Nat.mod_mod]

theorem mul15_toNat (x y : Value) : (mul15 x y).toNat = (x.toNat * y.toNat) % 32768 := by
  rw [mul15, BitVec.toNat_ofNat, Config.modulus, Nat.mod_mod]

theorem mod15_of_zero (x : Value) {y : Value} (h : y.toNat = 0) : mod15 x y = .error .divideByZero :=
  if_pos (BitVec.eq_of_toNat_eq h)

/-- A divisor that is not 0 has a remainder (R76). -/
theorem mod15_of_ne_zero (x : Value) {y : Value} (h : y.toNat ≠ 0) : mod15 x y = .ok (x % y) := by
  rw [mod15, if_neg fun e => h (congrArg BitVec.toNat e), BitVec.umod_def]

theorem not15_toNat (x : Value) : (not15 x).toNat = 32767 - x.toNat := by
  rw [not15, BitVec.toNat_not]

theorem eq15_eq (x y : Value) : eq15 x y = if x.toNat = y.toNat then 1 else 0 := by
  simp only [eq15, BitVec.toNat_inj]

/-! ### The computing instructions -/

/-- Settles O13: EQ and GT write the comparison's 0 or 1. -/
theorem eqAndGtWriteZeroOrOne : Obligations.EqAndGtWriteZeroOrOne := by
  intro s r a b x y hx hy
  exact ⟨rfl, compute2_ok hx hy (congrArg _ (eq15_eq x y)), rfl, compute2_ok hx hy rfl⟩

/-- Settles O18: ADD writes `add15` of what its operands denote. -/
theorem addIsModulo32768 : Obligations.AddIsModulo32768 := by
  intro s r a b x y hx hy
  exact ⟨rfl, add15 x y, add15_toNat x y, compute2_ok hx hy rfl⟩

/-- Settles O19: MULT writes `mul15` of what its operands denote. -/
theorem multIsModulo32768 : Obligations.MultIsModulo32768 := by
  intro s r a b x y hx hy
  exact ⟨rfl, mul15 x y, mul15_toNat x y, compute2_ok hx hy rfl⟩

/-- Settles O20: the divisor decides between the fault and the remainder. -/
theorem modIsRemainderOrFault : Obligations.ModIsRemainderOrFault := by
  intro s r a b x y hx hy
  refine ⟨rfl, fun hzero => ?_, fun hne => ⟨x % y, BitVec.toNat_umod, ?_⟩⟩
  · exact compute2_error hx hy (mod15_of_zero x hzero)
  · exact compute2_ok hx hy (mod15_of_ne_zero x hne)

/-- Settles O21: AND and OR write the bitwise operation of what their operands denote. -/
theorem andAndOrAreBitwise : Obligations.AndAndOrAreBitwise := by
  intro s r a b x y hx hy
  refine ⟨rfl, rfl, ⟨and15 x y, fun k _ => ?_, compute2_ok hx hy rfl⟩, ⟨or15 x y, fun k _ => ?_, compute2_ok hx hy rfl⟩⟩
  · exact BitVec.getLsbD_and
  · exact BitVec.getLsbD_or

/-- Settles O22: NOT writes `not15` of what its operand denotes. -/
theorem notIsComplement : Obligations.NotIsComplement := by
  intro s r a x hx
  exact ⟨rfl, not15 x, not15_toNat x, compute1_ok hx⟩

/-! ### PUSH and POP on legal operands -/

/-- A word up to 32767 passes WriteReg as the value of the same number (R69). -/
theorem writeReg_of_toNat_eq {w : CodeWord} {x : Value} (s : State) (r : RegIdx) (h : x.toNat = w.toNat) :
    s.writeReg r w = .ok (s.setReg r x) := by
  have hw : w = x.setWidth 16 := BitVec.eq_of_toNat_eq (by rw [← h, BitVec.toNat_setWidth_of_le (by omega)])
  rw [hw, State.writeReg_value]

/-- The state PUSH commits: the value in slot sp, sp and pc advanced (R83). -/
def State.pushed (s : State) (x : Value) : State :=
  ((s.stackWrite s.sp (x.setWidth 16)).setSp (s.sp + 1)).advance 2

theorem State.pushed_stk (s : State) (x : Value) : (s.pushed x).stk = s.stk.write s.sp (x.setWidth 16) := rfl

section
variable {s : State}

theorem execPush_of_not_full {v : Operand} {x : Value} (hx : Denotes s v x) (h : s.sp ≠ s.cap) :
    execPush v s = .next (s.pushed x) := by
  simp only [execPush, val_of_denotes hx, bind_ok, State.push, if_neg h, pure_ok, State.commit_ok, State.pushed]

theorem execPush_of_full {v : Operand} {x : Value} (hx : Denotes s v x) (h : s.sp = s.cap) :
    execPush v s = .next (s.takeFault .stackOverflow) := by
  simp only [execPush, val_of_denotes hx, bind_ok, State.push, if_pos h, bind_error, State.commit_error]

theorem execPop_of_empty (r : RegIdx) (h : s.sp = 0) :
    execPop (.reg r) s = .next (s.takeFault .stackUnderflow) := by
  simp only [execPop, dst_reg, bind_ok, State.pop, if_pos h, bind_error, State.commit_error]

/-- POP on a stack that is not empty comes down to WriteReg of the top entry (R84). -/
theorem execPop_of_not_empty (r : RegIdx) (h : s.sp ≠ 0) :
    execPop (.reg r) s =
      s.commit (((s.setSp (s.sp - 1)).writeReg r (s.stk.read (s.sp - 1))).map (·.advance 2)) := by
  simp only [execPop, dst_reg, bind_ok, State.pop, if_neg h, State.stackRead]
  cases (s.setSp (s.sp - 1)).writeReg r (s.stk.read (s.sp - 1)) <;> rfl

theorem execPop_of_value (r : RegIdx) {x : Value} (h : s.sp ≠ 0) (hx : x.toNat = (s.stk.read (s.sp - 1)).toNat) :
    execPop (.reg r) s = .next (((s.setSp (s.sp - 1)).setReg r x).advance 2) := by
  rw [execPop_of_not_empty r h, writeReg_of_toNat_eq _ r hx]
  rfl

theorem execPop_of_large (r : RegIdx) (h : s.sp ≠ 0) (hw : 32767 < (s.stk.read (s.sp - 1)).toNat) :
    execPop (.reg r) s = .next (s.takeFault .valueOutOfRange) := by
  rw [execPop_of_not_empty r h, State.writeReg_large _ r _ hw]
  rfl

/-- The slot a PUSH stores into reads as the value pushed. -/
theorem read_pushed_top (x : Value) (h : s.Inv) : ((s.pushed x).stk.read s.sp).toNat = x.toNat := by
  rw [State.pushed_stk, Memory.read_write_same _ _ _ h.stk_wf.1, BitVec.toNat_setWidth_of_le (by omega)]

/-- A PUSH leaves every other slot alone. -/
theorem read_pushed_ne (x : Value) {i : Nat} (h : i ≠ s.sp) : (s.pushed x).stk.read i = s.stk.read i :=
  Memory.read_write_ne _ _ _ _ h

theorem inv_pushed (x : Value) (hinv : s.Inv) (h : s.sp ≠ s.cap) : (s.pushed x).Inv :=
  ((Completes.push h _).advance 2).inv hinv

end

/-- Settles O11: STACK_CAPACITY is MEM_SIZE less the code, the registers and the trailer, and decides the case. -/
theorem pushStoresAtSp : Obligations.PushStoresAtSp := by
  intro s v x hinv hx
  refine ⟨rfl, fun hfull => execPush_of_full hx hfull, fun hne => ?_⟩
  exact ⟨s.pushed x, execPush_of_not_full hx hne, read_pushed_top x hinv, fun i hi => read_pushed_ne x hi, rfl⟩

/-- Settles O12: sp and the top entry decide between the two faults and the load. -/
theorem popLoadsTop : Obligations.PopLoadsTop := by
  intro s r
  exact ⟨rfl, execPop_of_empty r, execPop_of_large r, fun hne x hx => execPop_of_value r hne hx⟩

/-! ### Pushes undone by pops in reverse order -/

/-- When the first instructions complete, the others run from where they end. -/
theorem execAll_append {is : List Instr} {s t : State} (h : execAll is s = .next t) (js : List Instr) :
    execAll (is ++ js) s = execAll js t := by
  induction is generalizing s with
  | nil =>
    cases h
    rfl
  | cons i is ih =>
    rw [List.cons_append, execAll]
    rw [execAll] at h
    split at h
    · exact ih h
    · cases h
    · cases h

theorem execAll_cons {i : Instr} {s t : State} (h : exec i s = .next t) (is : List Instr) :
    execAll (i :: is) s = execAll is t := by
  rw [execAll, h]

/-- t has the registers, the code, sp, the run state and the host's side of s, and below sp also its stack. Slots from sp
on and pc are left open. -/
structure Restores (s t : State) : Prop where
  regs : t.regs = s.regs
  code : t.code = s.code
  sp : t.sp = s.sp
  run : t.run = s.run
  env : t.env = s.env
  slots : ∀ i, i < s.sp → t.stk.read i = s.stk.read i

theorem Restores.refl (s : State) : Restores s s := ⟨rfl, rfl, rfl, rfl, rfl, fun _ _ => rfl⟩

/-- A POP into the register pushed undoes the PUSH, whatever ran between them and restored the state after it. -/
theorem exec_pop_restores {s t : State} (r : RegIdx) (hinv : s.Inv) (h : Restores (s.pushed (s.reg r)) t) :
    ∃ u, exec (.pop (.reg r)) t = .next u ∧ Restores s u := by
  have hsp : t.sp = s.sp + 1 := h.sp
  have htop : (s.reg r).toNat = (t.stk.read (t.sp - 1)).toNat := by
    rw [hsp, Nat.add_sub_cancel, h.slots s.sp (Nat.lt_succ_self _), read_pushed_top _ hinv]
  refine ⟨_, execPop_of_value r (by omega) htop, ?_⟩
  constructor
  case regs =>
    calc t.regs.set r (s.reg r) = s.regs.set r s.regs[r] := by rw [h.regs]; rfl
      _ = s.regs := Vector.set_getElem_self _
  case code => exact h.code
  case sp => exact Nat.sub_eq_of_eq_add hsp
  case run => exact h.run
  case env => exact h.env
  case slots =>
    intro i hi
    exact (h.slots i (Nat.lt_succ_of_lt hi)).trans (read_pushed_ne _ (Nat.ne_of_lt hi))

/-- The list of O55: a PUSH of each register in order, then a POP into each in reverse order. -/
def pushesThenPops (rs : List RegIdx) : List Instr :=
  rs.map (fun r => .push (.reg r)) ++ rs.reverse.map (fun r => .pop (.reg r))

/-- The first register is pushed first and popped last. -/
theorem pushesThenPops_cons (r : RegIdx) (rs : List RegIdx) :
    pushesThenPops (r :: rs) = .push (.reg r) :: (pushesThenPops rs ++ [.pop (.reg r)]) := by
  simp [pushesThenPops]

theorem execAll_pushesThenPops (rs : List RegIdx) {s : State} (hinv : s.Inv) (hroom : s.sp + rs.length ≤ s.cap) :
    ∃ t, execAll (pushesThenPops rs) s = .next t ∧ Restores s t := by
  induction rs generalizing s with
  | nil => exact ⟨s, rfl, .refl s⟩
  | cons r rs ih =>
    rw [List.length_cons] at hroom
    have hne : s.sp ≠ s.cap := by omega
    have hroom' : s.sp + 1 + rs.length ≤ s.cap := by omega
    obtain ⟨t, hinner, ht⟩ := ih (inv_pushed (s.reg r) hinv hne) hroom'
    obtain ⟨u, hpop, hu⟩ := exec_pop_restores r hinv ht
    refine ⟨u, ?_, hu⟩
    calc execAll (pushesThenPops (r :: rs)) s
        = execAll (.push (.reg r) :: (pushesThenPops rs ++ [.pop (.reg r)])) s := by rw [pushesThenPops_cons]
      _ = execAll (pushesThenPops rs ++ [.pop (.reg r)]) (s.pushed (s.reg r)) :=
          execAll_cons (i := .push (.reg r)) (execPush_of_not_full (.reg r) hne) _
      _ = execAll [.pop (.reg r)] t := execAll_append hinner _
      _ = .next u := execAll_cons hpop []

/-- Settles O55: by induction on the registers, with the slots below sp kept so that each POP finds its own PUSH's entry. -/
theorem pushesThenPopsRestore : Obligations.PushesThenPopsRestore := by
  intro s rs hinv hroom
  obtain ⟨t, hexec, h⟩ := execAll_pushesThenPops rs hinv hroom
  exact ⟨t, hexec, h.regs, h.code, h.sp, h.run, h.env⟩

end Sys2Proof.Machine
end

section
/-! PROOFS. SET on legal operands (41_move_stack.md). -/

namespace Sys2Proof.Machine

/-- What SET does with an operand that denotes a value: WriteReg takes every value, so it cannot fault (R69, R82). -/
theorem execSet_of_denotes {s : State} {v : Operand} {x : Value} (r : RegIdx) (hx : Denotes s v x) :
    execSet (.reg r) v s = .next ((s.setReg r x).advance 3) := by
  simp only [execSet, dst_reg, val_of_denotes hx, bind_ok, State.writeReg_value, pure_ok, State.commit_ok]

/-- Settles O10: the register written and the advance by three words are the whole change. -/
theorem setCopiesValue : Obligations.SetCopiesValue := by
  intro s r v x hx
  exact ⟨rfl, execSet_of_denotes r hx⟩

end Sys2Proof.Machine
end

section
/-! PROOFS. Control transfer on legal operands (43_control.md), and a CALL undone by the RET that follows (R91, R92). -/

namespace Sys2Proof.Machine

section
variable {s : State}

/-! ### Jumps -/

/-- A resolved target goes into pc as the same number (R87). -/
theorem jump_pc_toNat (s : State) (x : Value) : (s.jump x).pc.toNat = x.toNat :=
  BitVec.toNat_setWidth_of_le (by omega)

theorem execJmp_of_denotes {a : Operand} {x : Value} (hx : Denotes s a x) : execJmp a s = .next (s.jump x) := by
  simp only [execJmp, val_of_denotes hx, bind_ok, pure_ok, State.commit_ok]

theorem isTrue_of_toNat_ne_zero {x : Value} (h : x.toNat ≠ 0) : isTrue x = true :=
  (isTrue_iff x).mpr fun e => h (congrArg BitVec.toNat e)

theorem isTrue_of_toNat_eq_zero {x : Value} (h : x.toNat = 0) : isTrue x = false := by
  rw [BitVec.eq_of_toNat_eq (y := 0) h]
  rfl

theorem execJt_of_denotes {c a : Operand} {x y : Value} (hx : Denotes s c x) (hy : Denotes s a y) :
    execJt c a s = .next (if isTrue x then s.jump y else s.advance 3) := by
  simp only [execJt, val_of_denotes hx, val_of_denotes hy, bind_ok, pure_ok, State.commit_ok]

theorem execJf_of_denotes {c a : Operand} {x y : Value} (hx : Denotes s c x) (hy : Denotes s a y) :
    execJf c a s = .next (if isTrue x then s.advance 3 else s.jump y) := by
  simp only [execJf, val_of_denotes hx, val_of_denotes hy, bind_ok, pure_ok, State.commit_ok]

/-! ### CALL and RET -/

/-- The state CALL commits: the return address in slot sp, sp up by one, pc at the target (R91). -/
def State.called (s : State) (x : Value) : State :=
  ((s.stackWrite s.sp (s.pc + 2)).setSp (s.sp + 1)).jump x

theorem State.called_stk (s : State) (x : Value) : (s.called x).stk = s.stk.write s.sp (s.pc + 2) := rfl

theorem execCall_of_not_full {a : Operand} {x : Value} (hx : Denotes s a x) (h : s.sp ≠ s.cap) :
    execCall a s = .next (s.called x) := by
  simp only [execCall, val_of_denotes hx, bind_ok, State.push, if_neg h, pure_ok, State.commit_ok, State.called]

theorem execCall_of_full {a : Operand} {x : Value} (hx : Denotes s a x) (h : s.sp = s.cap) :
    execCall a s = .next (s.takeFault .stackOverflow) := by
  simp only [execCall, val_of_denotes hx, bind_ok, State.push, if_pos h, bind_error, State.commit_error]

/-- The slot a CALL stores into reads as the exact pc + 2, for a pc that Decode lets pass (R19, R91). -/
theorem read_called_top (x : Value) (hinv : s.Inv) (hpc : s.pc.toNat ≤ 32767) :
    ((s.called x).stk.read s.sp).toNat = s.pc.toNat + 2 := by
  rw [State.called_stk, Memory.read_write_same _ _ _ hinv.stk_wf.1]
  exact advance_toNat hpc (.call (.lit x))

/-- A CALL leaves every other slot alone. -/
theorem read_called_ne (x : Value) {i : Nat} (h : i ≠ s.sp) : (s.called x).stk.read i = s.stk.read i :=
  Memory.read_write_ne _ _ _ _ h

/-- The state RET commits: pc at the top entry, sp down by one (R92). -/
def State.returned (s : State) : State := (s.setSp (s.sp - 1)).setPc (s.stk.read (s.sp - 1))

theorem execRet_of_not_empty (h : s.sp ≠ 0) : execRet s = .next s.returned := by
  simp only [execRet, State.pop, if_neg h, bind_ok, pure_ok, State.commit_ok, State.stackRead, State.returned]

theorem execRet_of_empty (h : s.sp = 0) : execRet s = .next (s.takeFault .stackUnderflow) := by
  simp only [execRet, State.pop, if_pos h, bind_error, State.commit_error]

/-- The RET after a CALL pops the CALL's own return address. -/
theorem returned_called_pc (s : State) (x : Value) : (s.called x).returned.pc = (s.called x).stk.read s.sp := rfl

theorem execAll_call_ret {a : Operand} {x : Value} (hx : Denotes s a x) (h : s.sp ≠ s.cap) :
    execAll [.call a, .ret] s = .next (s.called x).returned :=
  calc execAll [.call a, .ret] s
    _ = execAll [.ret] (s.called x) := execAll_cons (i := .call a) (execCall_of_not_full hx h) _
    _ = .next (s.called x).returned := execAll_cons (i := .ret) (execRet_of_not_empty (Nat.succ_ne_zero s.sp)) []

end

/-! ### The statements -/

/-- Settles O54: RET finds the CALL's return address on top, and CALL and RET move sp up and down by one. -/
theorem callThenRetResumes : Obligations.CallThenRetResumes := by
  intro s a x hinv hpc hx hroom
  have hpc' : (s.called x).returned.pc.toNat = s.pc.toNat + 2 := by
    rw [returned_called_pc, read_called_top x hinv hpc]
  exact ⟨_, execAll_call_ret hx hroom.ne, hpc', rfl, fun _ => rfl, fun _ => rfl, rfl⟩

/-- Settles O14: the resolved target is the whole change. -/
theorem jmpSetsPc : Obligations.JmpSetsPc := by
  intro s a x hx
  exact ⟨rfl, (s.jump x).pc, jump_pc_toNat s x, execJmp_of_denotes hx⟩

/-- Settles O15: the condition decides, in opposite ways, between the target and the linear advance. -/
theorem jtAndJfTestCondition : Obligations.JtAndJfTestCondition := by
  intro s c a x y hx hy
  have hjt := execJt_of_denotes hx hy
  have hjf := execJf_of_denotes hx hy
  refine ⟨rfl, rfl, (s.jump y).pc, jump_pc_toNat s y, fun hne => ?_, fun hzero => ?_⟩
  · rw [isTrue_of_toNat_ne_zero hne] at hjt hjf
    exact ⟨hjt, hjf⟩
  · rw [isTrue_of_toNat_eq_zero hzero] at hjt hjf
    exact ⟨hjt, hjf⟩

/-- Settles O16: sp at STACK_CAPACITY decides between the fault and the call. -/
theorem callPushesReturnAddress : Obligations.CallPushesReturnAddress := by
  intro s a x hinv hpc hx
  refine ⟨rfl, fun hfull => execCall_of_full hx hfull, fun hne => ?_⟩
  exact ⟨s.called x, execCall_of_not_full hx hne, read_called_top x hinv hpc, fun _ hi => read_called_ne x hi,
    jump_pc_toNat _ x, rfl⟩

/-- Settles O17: sp at 0 decides between the fault and the return, and nothing checks the entry. -/
theorem retTakesTopAsPc : Obligations.RetTakesTopAsPc := by
  intro s
  exact ⟨rfl, execRet_of_empty, execRet_of_not_empty⟩

end Sys2Proof.Machine
end

section
/-! PROOFS. RMEM and WMEM on legal operands (45_memory_access.md). -/

namespace Sys2Proof.Machine

section
variable {s : State}

/-! ### RMEM -/

/-- RMEM on legal operands comes down to WriteReg of the word at the address (R100). -/
theorem execRmem_of_denotes {a : Operand} {x : Value} (r : RegIdx) (hx : Denotes s a x) :
    execRmem (.reg r) a s = s.commit ((s.writeReg r (s.code.read x.toNat)).map (·.advance 3)) := by
  simp only [execRmem, dst_reg, val_of_denotes hx, bind_ok, State.memRead]
  cases s.writeReg r (s.code.read x.toNat) <;> rfl

theorem execRmem_of_large {a : Operand} {x : Value} (r : RegIdx) (hx : Denotes s a x)
    (hw : 32767 < (s.code.read x.toNat).toNat) :
    execRmem (.reg r) a s = .next (s.takeFault .valueOutOfRange) := by
  rw [execRmem_of_denotes r hx, State.writeReg_large s r _ hw]
  rfl

theorem execRmem_of_value {a : Operand} {x z : Value} (r : RegIdx) (hx : Denotes s a x)
    (hz : z.toNat = (s.code.read x.toNat).toNat) :
    execRmem (.reg r) a s = .next ((s.setReg r z).advance 3) := by
  rw [execRmem_of_denotes r hx, writeReg_of_toNat_eq s r hz]
  rfl

/-! ### WMEM -/

/-- The code word at the address of a store reads as the value stored (R101). -/
theorem read_memWrite_same (x y : Value) (hinv : s.Inv) : ((s.memWrite x y).code.read x.toNat).toNat = y.toNat := by
  rw [State.memWrite_code, Memory.read_write_same _ _ _ hinv.code_wf.1, BitVec.toNat_setWidth_of_le (by omega)]

/-- A store leaves every other code word alone. -/
theorem read_memWrite_ne (x y : Value) {b : Nat} (h : b ≠ x.toNat) : (s.memWrite x y).code.read b = s.code.read b :=
  Memory.read_write_ne _ _ _ _ h

end

/-- Settles O23: WriteReg of the word read decides between the fault and the copy. -/
theorem rmemCopiesCodeWord : Obligations.RmemCopiesCodeWord := by
  intro s r a x hx
  exact ⟨rfl, execRmem_of_large r hx, fun z hz => execRmem_of_value r hx hz⟩

/-- Settles O24: the one store at the resolved address and the advance by three words are the whole change. -/
theorem wmemStoresValue : Obligations.WmemStoresValue := by
  intro s a v x y hinv hx hy
  exact ⟨rfl, _, exec_wmem_of_denotes hx hy, read_memWrite_same x y hinv, fun _ hb => read_memWrite_ne x y hb, rfl⟩

end Sys2Proof.Machine
end

section
/-! PROOFS. HALT, OUT, IN and NOOP with their operands and the host's answers written out (46_system_io.md), what passes
the host's ports in one step (R102 to R104), and the resume from the record a save-trigger IN handed over (R124). -/

namespace Sys2Proof.Machine

/-! ### HALT, NOOP and OUT -/

/-- Settles O25: a Halted block with no reset pending only answers the named stop. -/
theorem haltStopsCleanly : Obligations.HaltStopsCleanly := by
  intro s
  refine ⟨rfl, rfl, fun hreq t hst => ?_⟩
  have hstop : step (s.setRun .halted) = .fault .halted := step_of_halted hreq rfl
  cases hstop.symm.trans hst

/-- Settles O31: the linear advance of an instruction of length 1 is the whole of NOOP. -/
theorem noopOnlyAdvances : Obligations.NoopOnlyAdvances := by
  intro s hpc
  exact ⟨rfl, (s.advance 1).pc, advance_toNat hpc .noop, rfl⟩

theorem execOut_of_denotes {s : State} {v : Operand} {x : Value} (hx : Denotes s v x) :
    execOut v s = .next ((s.emit (x.setWidth 8)).advance 2) := by
  simp only [execOut, val_of_denotes hx, bind_ok, pure_ok, State.commit_ok]

/-- An emitted byte ends the output stream (R102). -/
theorem output_emit (s : State) (b : Byte) : (s.emit b).env.output = s.env.output ++ [b] :=
  List.filterMap_append

/-- Settles O26: the byte emitted is the value narrowed to 8 bits, and emission and advance are the whole change. -/
theorem outEmitsLowByte : Obligations.OutEmitsLowByte := by
  intro s v x hx
  exact ⟨rfl, _, x.setWidth 8, execOut_of_denotes hx, BitVec.toNat_setWidth 8 x, output_emit s _, rfl⟩

/-! ### IN -/

/-- The state an IN commits when it has taken the byte b: b in the destination, pc advanced (R107). -/
def State.received (s : State) (r : RegIdx) (b : Byte) (rest : List InputAnswer) : State :=
  ((s.setEnv (consumed s (.byte b) rest)).setReg r (b.setWidth 15)).advance 2

/-- The host's side after the record of t has been handed over and answered with ans (R104). -/
def Env.handedOver (e : Env) (t : State) (ans : SnapshotAnswer) (answers : List SnapshotAnswer) : Env :=
  { e with snapshotAnswers := answers, events := e.events ++ [.snapshot t.unified ans] }

section
variable {s : State} {rest : List InputAnswer} {answers : List SnapshotAnswer}

theorem inv_received (h : s.Inv) (r : RegIdx) (b : Byte) (rest : List InputAnswer) : (s.received r b rest).Inv :=
  ((((Completes.refl s).setEnv (consumed_resetRequest s (.byte b) rest)).setReg r _).advance 2).inv h

theorem inputByte_of_answer {a : InputAnswer} (h : s.env.input = a :: rest) :
    s.inputByte = some (a, s.setEnv (consumed s a rest)) := by
  simp only [State.inputByte, h]
  rfl

theorem execInp_of_error (r : RegIdx) (h : s.env.input = .error :: rest) :
    execInp (.reg r) s = .next ((s.setEnv (consumed s .error rest)).takeFault .inputError) := by
  simp only [execInp, dst_reg, inputByte_of_answer h]

theorem execInp_of_endOfInput (r : RegIdx) (h : s.env.input = .endOfInput :: rest) :
    execInp (.reg r) s = .next ((s.setEnv (consumed s .endOfInput rest)).takeFault .inputEnd) := by
  simp only [execInp, dst_reg, inputByte_of_answer h]

/-- A byte other than the save trigger is stored with no snapshot (R107). -/
theorem execInp_of_other {b : Byte} (r : RegIdx) (h : s.env.input = .byte b :: rest) (hb : b.toNat ≠ 16) :
    execInp (.reg r) s = .next (s.received r b rest) := by
  rw [execInp_byte r h, deliverByte_other r b _ hb]
  rfl

/-- The save trigger, with the host's answer Ok, commits the state whose record it hands over (R107). -/
theorem execInp_of_saved (r : RegIdx) (h : s.env.input = .byte 16 :: rest)
    (hans : s.env.snapshotAnswers = .ok :: answers) :
    execInp (.reg r) s = .next ((s.received r 16 rest).setEnv
      ((consumed s (.byte 16) rest).handedOver (s.received r 16 rest) .ok answers)) :=
  (execInp_trigger r h).trans (snapshot_of_ok _ hans)

theorem snapshot_of_error (t : State) (hans : s.env.snapshotAnswers = .error :: answers) :
    s.snapshot t = .next ((s.setEnv (s.env.handedOver t .error answers)).takeFault .snapshotError) := by
  simp only [State.snapshot, hans]
  rfl

/-- The save trigger, with the host's answer Error, faults after the record has been handed over (R107, R114). -/
theorem execInp_of_unsaved (r : RegIdx) (h : s.env.input = .byte 16 :: rest)
    (hans : s.env.snapshotAnswers = .error :: answers) :
    execInp (.reg r) s = .next ((s.setEnv
      ((consumed s (.byte 16) rest).handedOver (s.received r 16 rest) .error answers)).takeFault .snapshotError) :=
  (execInp_trigger r h).trans (snapshot_of_error _ hans)

/-- The traffic of an IN that asks for a snapshot: its answer is consumed, then the record is handed over (R107). -/
theorem handedOver_consumed (t : State) (a : InputAnswer) (ans : SnapshotAnswer) :
    (consumed s a rest).handedOver t ans answers = { s.env with
      input := rest, snapshotAnswers := answers, events := s.env.events ++ [.input a, .snapshot t.unified ans] } := by
  simp only [Env.handedOver, consumed, List.append_assoc, List.cons_append, List.nil_append]

end

/-- Settles O27: the byte, widened to a value, is what the destination gets. -/
theorem inStoresByte : Obligations.InStoresByte := by
  intro s r b rest hin hb
  exact ⟨rfl, b.setWidth 15, BitVec.toNat_setWidth_of_le (by omega), execInp_of_other r hin hb⟩

/-- Settles O29: each fault is entered on the state before the IN with the ports' traffic kept, and the record that was
not saved is that of the state the IN would have committed, which does not depend on the host's side. -/
theorem inFaultsKeepState : Obligations.InFaultsKeepState := by
  intro s r rest
  refine ⟨execInp_of_error r, execInp_of_endOfInput r, fun answers hin hans => ?_⟩
  refine ⟨(s.received r 16 rest).unified, fun hinv hsp => ?_, ?_⟩
  · exact (isRecordOf_unified (inv_received hinv r 16 rest) hsp).setEnv s.env
  · rw [exec_inp, execInp_of_unsaved r hin hans, handedOver_consumed]
    rfl

/-! ### What passes the ports in one step -/

/-- A snapshot that is answered consumes one answer, whichever it is (R104, R114). -/
theorem snapshot_env {s t u : State} (h : s.snapshot t = .next u) :
    ∃ ans answers, s.env.snapshotAnswers = ans :: answers ∧ u.env = s.env.handedOver t ans answers := by
  rcases snapshot_cases s t with ⟨-, e⟩ | ⟨answers, hans, e⟩ | ⟨answers, hans, e⟩ <;> cases e.symm.trans h
  · exact ⟨.ok, answers, hans, rfl⟩
  · exact ⟨.error, answers, hans, rfl⟩

/-- The host's side from e to e' when an IN has consumed an input answer: nothing else passed, or after byte 16 one
snapshot, which consumed one snapshot answer. -/
def InputTraffic (e e' : Env) : Prop :=
  ∃ a rest, e.input = a :: rest ∧
    (e' = { e with input := rest, events := e.events ++ [.input a] } ∨
      ∃ L ans answers, a = .byte 16 ∧ e.snapshotAnswers = ans :: answers ∧
        e' = { e with
          input := rest, snapshotAnswers := answers, events := e.events ++ [.input a, .snapshot L ans] })

theorem deliverByte_traffic {s t : State} {r : RegIdx} {b : Byte} {rest : List InputAnswer}
    (hin : s.env.input = .byte b :: rest)
    (h : deliverByte r b (s.setEnv (consumed s (.byte b) rest)) = .next t) : InputTraffic s.env t.env := by
  refine ⟨.byte b, rest, hin, ?_⟩
  rw [deliverByte_eq] at h
  split at h
  case isTrue hb =>
    obtain ⟨ans, answers, hans, henv⟩ := snapshot_env h
    exact .inr ⟨_, ans, answers, congrArg _ hb, hans, henv.trans (handedOver_consumed _ _ _)⟩
  case isFalse =>
    cases h
    exact .inl rfl

/-- An IN faults on its destination before it asks for input, or consumes one answer (R107, R114). -/
theorem execInp_traffic {d : Operand} {s t : State} (h : execInp d s = .next t) :
    t.env = s.env ∨ InputTraffic s.env t.env := by
  rcases execInp_cases d s with
    ⟨_, -, -, e⟩ | ⟨_, rest, -, hin, e⟩ | ⟨_, rest, -, hin, e⟩ | ⟨r, b, rest, -, hin, e⟩ | ⟨e, -⟩ <;>
    have hnext := e.symm.trans h
  · cases hnext
  · cases hnext
    exact .inr ⟨_, rest, hin, .inl rfl⟩
  · cases hnext
    exact .inr ⟨_, rest, hin, .inl rfl⟩
  · exact .inr (deliverByte_traffic hin hnext)
  · cases hnext
    exact .inl rfl

/-- Only OUT and IN reach the host's side, and OUT emits one byte (R102). -/
theorem ExecAnswers.env_cases {s t : State} {i : Instr} (h : ExecAnswers s i (.next t)) :
    t.env = s.env ∨ (i.mnemonic = .out ∧ ∃ b, t.env = { s.env with events := s.env.events ++ [.emit b] }) ∨
      ∃ d, i = .inp d := by
  cases h with
  | out o b => exact .inr (.inl ⟨rfl, b, rfl⟩)
  | inp r | inpFaults d => exact .inr (.inr ⟨_, rfl⟩)
  | _ => exact .inl rfl

/-- Settles O46: a Decode fault passes nothing, and of the decoded instructions only OUT and IN do. -/
theorem portTrafficOfAStep : Obligations.PortTrafficOfAStep := by
  intro s t hs hst
  rcases step_ready_cases hs with ⟨c, -, e⟩ | ⟨i, hd, e⟩ <;> have hnext := e.symm.trans hst
  · cases hnext
    exact .inl rfl
  · have hop := (decoded_at_pc hd).1
    rcases (answers_of_exec hnext).env_cases with henv | ⟨hm, hemit⟩ | ⟨d, rfl⟩
    · exact .inl henv
    · exact .inr (.inl ⟨by rw [hop, hm]; rfl, hemit⟩)
    · exact (execInp_traffic hnext).imp_right fun htraffic => .inr ⟨hop, htraffic⟩

/-! ### Reset from the record of a state -/

/-- A canonical store is determined by its reads inside its address range. -/
theorem Memory.ext_of_read_lt {size : Nat} {m n : Memory} (hm : Memory.wf size m) (hn : Memory.wf size n)
    (h : ∀ a, a < size → m.read a = n.read a) : m = n := by
  have beyond {k : Memory} (hk : Memory.wf size k) {a : Nat} (ha : ¬ a < size) : k.read a = Memory.unlisted :=
    Memory.read_of_not_mem k a fun c hc e => ha (e ▸ (hk.2 c hc).1)
  refine Memory.ext_of_read hm hn fun a => ?_
  by_cases ha : a < size
  · exact h a ha
  · rw [beyond hm ha, beyond hn ha]

theorem regs_ext {s t : State} (h : ∀ r, s.reg r = t.reg r) : s.regs = t.regs :=
  Vector.ext fun i hi => h ⟨i, hi⟩

/-- A reset from the record of a legal state t, of a block of the same MEM_SIZE, gives t back, Running (R120, R124). -/
theorem step_of_request_isRecordOf {t u : State} {L : Memory} (hinv : t.Inv) (hL : IsRecordOf L t)
    (hwf : Memory.wf t.memSize L) (hm : u.memSize = t.memSize) (hreq : u.env.resetRequest = some L) :
    step u = .next { t with run := .running, env := { u.env with resetRequest := none } } := by
  have hcap : u.cap = t.cap := congrArg Config.stackCapacity hm
  have hsp : (L.read (u.memSize - 2)).toNat = t.sp := hm ▸ hL.sp
  have hwfu : Memory.wf u.memSize L := hm ▸ hwf
  obtain ⟨v, hst, hcode, hregs, hstk, hvsp, hvpc, hrun, hvm, henv⟩ := resetLoadsRecord u L hreq
    (fun r => by rw [hL.regs r]; omega) (hsp.trans_le (hinv.sp_le.trans hcap.ge))
  cases (step_of_request hreq).symm.trans hst
  have eregs : (u.resetFrom L).regs = t.regs :=
    regs_ext fun r => BitVec.eq_of_toNat_eq ((hregs r).trans (hL.regs r))
  have ecode : (u.resetFrom L).code = t.code :=
    Memory.ext_of_read_lt (wf_resetFrom_code hwfu) hinv.code_wf fun a ha => (hcode a ha).trans (hL.code a ha)
  have estk : (u.resetFrom L).stk = t.stk :=
    Memory.ext_of_read_lt (hcap ▸ wf_resetFrom_stk hwfu) hinv.stk_wf fun i hi =>
      (hstk i (hi.trans_eq hcap.symm)).trans (hL.stk i hi)
  have epc : (u.resetFrom L).pc = t.pc := hvpc.trans (hm ▸ hL.pc)
  rw [hst, ← hm, ← hvm, ← eregs, ← epc, ← hsp, ← hvsp, ← estk, ← ecode, ← hrun, ← henv]

/-- Settles O53: the last event holds the unified record of the state the IN commits, which is legal again. -/
theorem resumeFromSnapshot : Obligations.ResumeFromSnapshot := by
  intro s t u r rest answers L es hinv hsp hin hans hexec hev hm hreq
  cases (execInp_of_saved r hin hans).symm.trans hexec
  have hlast := (List.append_inj' hev rfl).2
  obtain ⟨rfl, -⟩ := Event.snapshot.inj (List.singleton_inj.1 hlast)
  have hcommit := inv_received hinv r 16 rest
  exact ⟨_, step_of_request_isRecordOf hcommit (isRecordOf_unified hcommit hsp) (wf_unified hcommit) hm hreq,
    rfl, rfl, rfl, rfl, rfl, rfl⟩

end Sys2Proof.Machine
end

section
/-! PROOFS. The causes an instruction can fault for (60_exceptions.md R113), and the run states only a reset leaves
(R111, R115). -/

namespace Sys2Proof.Machine

/-! ### The causes of a fault entry -/

/-- A meaning's next state, if it gives one, is Faulted for a cause in cs or not Faulted at all. -/
def FaultsOnlyFor (cs : List Cause) : Result → Prop
  | .next t => ∀ c, t.run = .faulted c → c ∈ cs
  | .fault _ => True
  | .refused _ => True

theorem faultsOnlyFor_of_running {cs : List Cause} {t : State} (h : t.run = .running) : FaultsOnlyFor cs (.next t) :=
  fun _ hc => nomatch h.symm.trans hc

theorem faultsOnlyFor_takeFault {cs : List Cause} (s : State) {c : Cause} (h : c ∈ cs) :
    FaultsOnlyFor cs (.next (s.takeFault c)) := by
  intro c' hc
  cases hc
  exact h

theorem FaultsOnlyFor.mono {cs cs' : List Cause} {r : Result} (h : FaultsOnlyFor cs r) (hsub : cs ⊆ cs') :
    FaultsOnlyFor cs' r := by
  cases r with
  | next t => exact fun c hc => hsub (h c hc)
  | fault f => trivial
  | refused f => trivial

/-- The fault of a misfit operand needs no entry in the list, since a well-formed instruction cannot take it. -/
theorem faultsOnlyFor_of_malformed {cs : List Cause} {r : Result} {wf : Bool} (hwf : wf = true) (h : wf = false) :
    FaultsOnlyFor cs r :=
  nomatch hwf.symm.trans h

/-- MOD's computation fails only for a zero divisor (R76). -/
theorem eq_divideByZero_of_mod15_error {x y : Value} {c : Cause} (h : mod15 x y = .error c) : c = .divideByZero := by
  by_cases hy : y.toNat = 0
  · exact Except.error.inj (h.symm.trans (mod15_of_zero x hy))
  · cases (mod15_of_ne_zero x hy).symm.trans h

section
variable {s : State} (hs : s.run = .running)
include hs

/-- A computing instruction faults only for the causes of its computation. -/
theorem compute2_faultsOnlyFor {f : Value → Value → Except Cause Value} {cs : List Cause} {d a b : Operand}
    (hwf : (d.isDestination && a.isValue && b.isValue) = true) (hf : ∀ x y c, f x y = .error c → c ∈ cs) :
    FaultsOnlyFor cs (compute2 f d a b s) := by
  rcases compute2_cases f d a b s with ⟨_, _, _, _, -, -, -, -, e⟩ | ⟨c, e, hcause⟩ <;> rw [e]
  · exact faultsOnlyFor_of_running hs
  · obtain ⟨x, y, hxy⟩ := hcause hwf
    exact faultsOnlyFor_takeFault s (hf x y c hxy)

theorem compute1_faultsOnlyFor {f : Value → Value} {d a : Operand} (hwf : (d.isDestination && a.isValue) = true) :
    FaultsOnlyFor [] (compute1 f d a s) := by
  rcases compute1_cases f d a s with ⟨_, _, -, -, e⟩ | ⟨_, e, hbad⟩ <;> rw [e]
  · exact faultsOnlyFor_of_running hs
  · exact faultsOnlyFor_of_malformed hwf hbad

theorem execSet_faultsOnlyFor {d v : Operand} (hwf : (d.isDestination && v.isValue) = true) :
    FaultsOnlyFor [] (execSet d v s) := by
  rcases execSet_cases d v s with ⟨_, _, -, -, e⟩ | ⟨_, e, hbad⟩ <;> rw [e]
  · exact faultsOnlyFor_of_running hs
  · exact faultsOnlyFor_of_malformed hwf hbad

theorem execPush_faultsOnlyFor {v : Operand} (hwf : v.isValue = true) :
    FaultsOnlyFor [.stackOverflow] (execPush v s) := by
  rcases execPush_cases v s with ⟨_, -, -, e⟩ | ⟨_, -, -, e⟩ | ⟨_, e, hbad⟩ <;> rw [e]
  · exact faultsOnlyFor_of_running hs
  · exact faultsOnlyFor_takeFault s (by simp)
  · exact faultsOnlyFor_of_malformed hwf hbad

theorem execPop_faultsOnlyFor {d : Operand} (hwf : d.isDestination = true) :
    FaultsOnlyFor [.stackUnderflow, .valueOutOfRange] (execPop d s) := by
  rcases execPop_cases d s with ⟨_, -, -, -, e⟩ | ⟨_, -, -, e⟩ | ⟨_, -, -, -, e⟩ | ⟨_, e, hbad⟩ <;> rw [e]
  · exact faultsOnlyFor_of_running hs
  · exact faultsOnlyFor_takeFault s (by simp)
  · exact faultsOnlyFor_takeFault s (by simp)
  · exact faultsOnlyFor_of_malformed hwf hbad

theorem execJmp_faultsOnlyFor {a : Operand} (hwf : a.isValue = true) : FaultsOnlyFor [] (execJmp a s) := by
  rcases execJmp_cases a s with ⟨_, -, e⟩ | ⟨_, e, hbad⟩ <;> rw [e]
  · exact faultsOnlyFor_of_running hs
  · exact faultsOnlyFor_of_malformed hwf hbad

theorem execJt_faultsOnlyFor {c a : Operand} (hwf : (c.isValue && a.isValue) = true) :
    FaultsOnlyFor [] (execJt c a s) := by
  rcases execJt_cases c a s with ⟨_, _, -, -, e⟩ | ⟨_, e, hbad⟩ <;> rw [e]
  · split <;> exact faultsOnlyFor_of_running hs
  · exact faultsOnlyFor_of_malformed hwf hbad

theorem execJf_faultsOnlyFor {c a : Operand} (hwf : (c.isValue && a.isValue) = true) :
    FaultsOnlyFor [] (execJf c a s) := by
  rcases execJf_cases c a s with ⟨_, _, -, -, e⟩ | ⟨_, e, hbad⟩ <;> rw [e]
  · split <;> exact faultsOnlyFor_of_running hs
  · exact faultsOnlyFor_of_malformed hwf hbad

theorem execCall_faultsOnlyFor {a : Operand} (hwf : a.isValue = true) :
    FaultsOnlyFor [.stackOverflow] (execCall a s) := by
  rcases execCall_cases a s with ⟨_, -, -, e⟩ | ⟨_, -, -, e⟩ | ⟨_, e, hbad⟩ <;> rw [e]
  · exact faultsOnlyFor_of_running hs
  · exact faultsOnlyFor_takeFault s (by simp)
  · exact faultsOnlyFor_of_malformed hwf hbad

theorem execRet_faultsOnlyFor : FaultsOnlyFor [.stackUnderflow] (execRet s) := by
  rcases execRet_cases s with ⟨-, e⟩ | ⟨-, e⟩ <;> rw [e]
  · exact faultsOnlyFor_of_running hs
  · exact faultsOnlyFor_takeFault s (by simp)

theorem execRmem_faultsOnlyFor {d a : Operand} (hwf : (d.isDestination && a.isValue) = true) :
    FaultsOnlyFor [.valueOutOfRange] (execRmem d a s) := by
  rcases execRmem_cases d a s with ⟨_, _, -, -, -, e⟩ | ⟨_, _, -, -, -, e⟩ | ⟨_, e, hbad⟩ <;> rw [e]
  · exact faultsOnlyFor_of_running hs
  · exact faultsOnlyFor_takeFault s (by simp)
  · exact faultsOnlyFor_of_malformed hwf hbad

theorem execWmem_faultsOnlyFor {a v : Operand} (hwf : (a.isValue && v.isValue) = true) :
    FaultsOnlyFor [] (execWmem a v s) := by
  rcases execWmem_cases a v s with ⟨_, _, -, -, e⟩ | ⟨_, e, hbad⟩ <;> rw [e]
  · exact faultsOnlyFor_of_running hs
  · exact faultsOnlyFor_of_malformed hwf hbad

theorem execOut_faultsOnlyFor {v : Operand} (hwf : v.isValue = true) : FaultsOnlyFor [] (execOut v s) := by
  rcases execOut_cases v s with ⟨_, -, e⟩ | ⟨_, e, hbad⟩ <;> rw [e]
  · exact faultsOnlyFor_of_running hs
  · exact faultsOnlyFor_of_malformed hwf hbad

/-- A byte is always stored, so only the snapshot of a save trigger can fault (R107). -/
theorem deliverByte_faultsOnlyFor (r : RegIdx) (b : Byte) : FaultsOnlyFor [.snapshotError] (deliverByte r b s) := by
  rw [deliverByte_eq]
  split
  · rcases snapshot_cases s ((s.setReg r (b.setWidth 15)).advance 2) with ⟨-, e⟩ | ⟨_, -, e⟩ | ⟨_, -, e⟩ <;> rw [e]
    · trivial
    · exact faultsOnlyFor_of_running hs
    · exact faultsOnlyFor_takeFault _ (by simp)
  · exact faultsOnlyFor_of_running hs

theorem execInp_faultsOnlyFor {d : Operand} (hwf : d.isDestination = true) :
    FaultsOnlyFor [.inputError, .inputEnd, .snapshotError] (execInp d s) := by
  rcases execInp_cases d s with ⟨_, -, -, e⟩ | ⟨_, _, -, -, e⟩ | ⟨_, _, -, -, e⟩ | ⟨r, b, rest, -, -, e⟩ | ⟨e, hbad⟩ <;>
    rw [e]
  · trivial
  · exact faultsOnlyFor_takeFault _ (by simp)
  · exact faultsOnlyFor_takeFault _ (by simp)
  · exact (deliverByte_faultsOnlyFor (s := s.setEnv (consumed s (.byte b) rest)) hs r b).mono (by simp)
  · exact faultsOnlyFor_of_malformed hwf hbad

/-- Every instruction whose operands fit its row faults only for the causes its rule lists (R113, item 5). -/
theorem exec_faultsOnlyFor {i : Instr} (hwf : i.wellFormed = true) : FaultsOnlyFor (executeCauses i) (exec i s) := by
  cases i with
  | halt => exact nofun
  | set d v => exact execSet_faultsOnlyFor hs hwf
  | push v => exact execPush_faultsOnlyFor hs hwf
  | pop d => exact execPop_faultsOnlyFor hs hwf
  | eq d a b => exact compute2_faultsOnlyFor hs hwf nofun
  | gt d a b => exact compute2_faultsOnlyFor hs hwf nofun
  | jmp a => exact execJmp_faultsOnlyFor hs hwf
  | jt c a => exact execJt_faultsOnlyFor hs hwf
  | jf c a => exact execJf_faultsOnlyFor hs hwf
  | add d a b => exact compute2_faultsOnlyFor hs hwf nofun
  | mult d a b => exact compute2_faultsOnlyFor hs hwf nofun
  | mod d a b => exact compute2_faultsOnlyFor hs hwf fun _ _ _ h => List.mem_singleton.2 (eq_divideByZero_of_mod15_error h)
  | and d a b => exact compute2_faultsOnlyFor hs hwf nofun
  | or d a b => exact compute2_faultsOnlyFor hs hwf nofun
  | not d a => exact compute1_faultsOnlyFor hs hwf
  | rmem d a => exact execRmem_faultsOnlyFor hs hwf
  | wmem a v => exact execWmem_faultsOnlyFor hs hwf
  | call a => exact execCall_faultsOnlyFor hs hwf
  | ret => exact execRet_faultsOnlyFor hs
  | out v => exact execOut_faultsOnlyFor hs hwf
  | inp d => exact execInp_faultsOnlyFor hs hwf
  | noop => exact faultsOnlyFor_of_running hs

end

/-- Settles O44: a Running state is not Faulted before, so a Faulted next state is a fault entry of the instruction. -/
theorem executeFaultsAreListed : Obligations.ExecuteFaultsAreListed := by
  intro i s t c hwf hs hexec hrun
  have h := exec_faultsOnlyFor hs hwf
  rw [hexec] at h
  exact h c hrun

/-! ### Only a reset leaves Halted and Faulted -/

/-- Settles O45: a step that gives a next state takes the pending reset or is that of a Running block. -/
theorem terminalUntilReset : Obligations.TerminalUntilReset := by
  intro s
  refine ⟨step_of_halted, fun _ => step_of_faulted, fun t hrun hst => ?_⟩
  rcases step_next_cases hst with hreset | ⟨hready, -⟩
  · exact hreset
  · exact absurd hready.1 hrun

end Sys2Proof.Machine
end

section
/-! PROOFS. Reset from an invalid record (70_reset_and_hazards.md R121). -/

namespace Sys2Proof.Machine

/-- A register word above 32767 is loaded as 0 (R121). -/
theorem loadReg_eq_zero {L : Memory} {i : Nat} (h : 32767 < (L.read (32768 + i)).toNat) : loadReg L i = 0 :=
  if_neg h.not_ge

/-- An sp word above STACK_CAPACITY is loaded as 0 (R121). -/
theorem resetFrom_sp_eq_zero {s : State} {L : Memory} (h : s.cap < (L.read (s.memSize - 2)).toNat) :
    (s.resetFrom L).sp = 0 :=
  if_neg h.not_ge

/-- A valid record meets R121's two conditions. -/
theorem le_of_loadValid {memSize : Nat} {L : Memory} (h : loadValid memSize L = true) :
    (∀ r : RegIdx, (L.read (32768 + r.val)).toNat ≤ 32767) ∧
      (L.read (memSize - 2)).toNat ≤ Config.stackCapacity memSize := by
  rw [loadValid, Bool.and_eq_true, List.all_eq_true] at h
  obtain ⟨hregs, hsp⟩ := h
  exact ⟨fun r => of_decide_eq_true (hregs r.val (List.mem_range.2 r.isLt)), of_decide_eq_true hsp⟩

/-- A reset from a record that is not valid is Faulted(ResetInvalid) (R121). -/
theorem resetFrom_run_of_invalid {s : State} {L : Memory} (h : ¬ loadValid s.memSize L = true) :
    (s.resetFrom L).run = .faulted .resetInvalid :=
  if_neg h

/-- Settles O51: one invalid word makes the record invalid, and each field is loaded by its own word alone. -/
theorem invalidRecordFaults : Obligations.InvalidRecordFaults := by
  intro s L hreq hbad
  have hinvalid : ¬ loadValid s.memSize L = true := fun hvalid => by
    obtain ⟨hregs, hsp⟩ := le_of_loadValid hvalid
    rcases hbad with ⟨r, hr⟩ | hbig
    · exact hr.not_ge (hregs r)
    · exact hbig.not_ge hsp
  refine ⟨s.resetFrom L, step_of_request hreq, resetFrom_run_of_invalid hinvalid, fun r hr => ?_, fun r hr => ?_,
    resetFrom_sp_eq_zero, resetFrom_sp, read_resetFrom_code s L, read_resetFrom_stk s L, rfl⟩
  · rw [resetFrom_reg, loadReg_eq_zero hr]
  · rw [resetFrom_reg, loadReg_toNat hr]

end Sys2Proof.Machine
end
